-- ==== Sys2Proof/Word.lean ====
section
/-! DEFINITION. The widths spec/00_scope.md R5 and R6 give: a byte, a 24-bit address, the 16-bit keyboard word, and time. -/

namespace Sys2Proof

/-- A byte, "8 bits, an unsigned integer 0 to 255" (R6). -/
abbrev Byte := BitVec 8

/-- A 24-bit address, and the width of the program counter (R5 `ADDR_BITS`, R11). Inside the machine an address argument
that may exceed `0xFFFFFF` (such as `pc + 3`) is a `Nat`: address sums are never wrapped (R30). -/
abbrev Addr := BitVec 24

/-- The keyboard word: bit `k` is key `k`, 1 = pressed (R15). -/
abbrev KeyWord := BitVec 16

/-- A time in milliseconds, an exact rational (R6, R16; D6; log 16). -/
abbrev Time := Rat

end Sys2Proof
end

