-- ==== Sys2Proof/Config.lean ====
section
/-! DEFINITION. The implementation parameters of spec/00_scope.md R5. All are fixed constants but `t0`, which the spec
leaves open with a default (D5). There is no free value: the spec leaves no computed value to chance
(spec/93_implementation_defined.md, Part 1). -/

namespace Sys2Proof.Config

/-- `MEM_SIZE`: the length of the byte store, 16 MiB and 8 bytes (R5, R13). -/
def memSize : Nat := 0x1000008

/-- `ADDR_MAX`: the largest legal address argument of any access primitive (R5, R30, R33). -/
def addrMax : Nat := 0xFFFFFF

/-- `INSTR_BYTES`: three 3-byte addresses (R5, R50). -/
def instrBytes : Nat := 9

/-- `BURST_LEN`: instructions executed per frame (R5, R64). -/
def burstLen : Nat := 65536

/-- `FRAME_DURATION`: `1000/60` ms, the exact rational `50/3` (R5, R78; D6). -/
def frameDuration : Time := 50 / 3

/-- `FB_W` and `FB_H`: the framebuffer's width and height in pixels (R5, R95). -/
def fbWidth : Nat := 256

/-- See `fbWidth`. -/
def fbHeight : Nat := 256

/-- The number of pixels of one frame, `FB_W * FB_H` (R96). -/
abbrev fbPixels : Nat := 65536

/-- `AUDIO_LEN`: samples per frame (R5, R101). -/
abbrev audioLen : Nat := 256

/-- `NKEYS`: key bits of the keyboard word (R5, R15). -/
def nKeys : Nat := 16

/-- `T0`: the reset value of `LFT`. The spec leaves it OPEN with default 0 ms (R5, R16, D5).
DESIGN CHOICE, unsafe for schedule claims about the first frame after reset: the default is taken (log 4). -/
def t0 : Time := 0

end Sys2Proof.Config
end

