-- ==== Sys2Proof/Machine/Types.lean ====
section
/-! DEFINITION. The plain data the state is made of: errors, the phase of a frame, pixels, the host's operations and
what they answer (spec/10_state.md, 41_host_operations.md, 60_exceptions.md). -/

namespace Sys2Proof.Machine

/-- The two error kinds of the block (R110, R111). -/
inductive ErrorKind where
  /-- An address argument exceeds `0xFFFFFF`. -/
  | outOfBounds
  /-- An image is longer than the store. -/
  | imageTooLarge
  deriving DecidableEq, Repr

/-- An error with the value it records: the offending address argument, or the image's length (R111). -/
structure ErrorRecord where
  kind : ErrorKind
  value : Nat
  deriving DecidableEq, Repr

/-- What part of a frame is in progress (R71, R80), with the transients that exist only there (R19). -/
inductive Phase where
  /-- Between frames: the only place where a host operation can happen (R71). -/
  | idle
  /-- In a burst: `pc` is the program counter (R11), `n` the iteration counter, the number of instructions this burst
  has already completed (R19, R64). -/
  | burst (pc : Addr) (n : Nat)
  /-- After a burst's last instruction, before the decoders have run (R80). -/
  | decode
  deriving DecidableEq, Repr

/-- One pixel, the architectural tuple `(R, G, B, A)` (R97, R98). -/
structure Rgba where
  r : Byte
  g : Byte
  b : Byte
  a : Byte
  deriving DecidableEq, Repr

/-- `VIDEO_OUT`: 65536 pixels in row-major order (R21, R96). -/
abbrev VideoOut := Vector Rgba Config.fbPixels

/-- `AUDIO_OUT`: 256 samples, each the exact rational `s / 128` (R21, R101; D23, log 27). -/
abbrev AudioOut := Vector Rat Config.audioLen

/-- The operations the host may perform on the block (R71), and the reading of the fault latch, which R83 allows without
naming an operation (log 26). -/
inductive HostOp where
  /-- `Reset()` (R70). -/
  | reset
  /-- `LoadImage(bytes)` (R72, R73). -/
  | loadImage (bytes : List Byte)
  /-- `KeyPress(k)` (R74); an index of 16 or more is ignored. -/
  | keyPress (k : Nat)
  /-- `KeyRelease(k)` (R75); an index of 16 or more is ignored. -/
  | keyRelease (k : Nat)
  /-- `Start()` (R76). -/
  | start
  /-- `Stop()` (R77). -/
  | stop
  /-- `Tick(time)` (R78). -/
  | tick (time : Time)
  /-- `IsRunning()` (R83). -/
  | isRunning
  /-- `Inspect()` (R83). -/
  | inspect
  /-- The host reads `FAULT` (R18, R83). -/
  | readFault
  deriving DecidableEq, Repr

/-- The four values of `Inspect()` (R83). -/
structure Inspection where
  keyboardWord : KeyWord
  pc : Addr
  framebuffer : Addr
  audio : Addr
  deriving DecidableEq, Repr

/-- What an operation hands back to the host (R71's result column, R82). -/
inductive Reply where
  /-- The operation has no result: `Reset`, `KeyPress`, `KeyRelease`, `Start`, `Stop`. -/
  | done
  /-- `LoadImage` succeeded (R72). -/
  | loaded
  /-- `LoadImage` failed: `ImageTooLarge(L)` (R73). -/
  | refusedImage (e : ErrorRecord)
  /-- A tick that ran no frame (R82). -/
  | idle
  /-- A tick that ran one frame to completion, with its outputs (R82). -/
  | frame (video : VideoOut) (audio : AudioOut)
  /-- A tick whose frame aborted (R82, R112). -/
  | fault (e : ErrorRecord)
  /-- `IsRunning()`. -/
  | running (run : Bool)
  /-- `Inspect()`. -/
  | inspected (values : Inspection)
  /-- The fault latch. -/
  | latch (fault : Option ErrorRecord)
  deriving DecidableEq, Repr

end Sys2Proof.Machine
end

