-- ==== Sys2Proof/Syntax.lean ====
section
/-! DEFINITION. The instruction set: the single instruction `BBJ` (spec/30_encoding.md R53, R55; opcode_table.json). -/

namespace Sys2Proof

/-- The instructions, one constructor per row of spec/opcode_table.json. -/
inductive Instr where
  /-- `BBJ A, B, C`, ByteByteJump: `M[B] <- M[A]`, then `pc <- C` (R55, R61). -/
  | bbj (a b c : Addr)
  deriving DecidableEq, Repr

/-- The listing idiom `HALT` = `BBJ x, x, .`: a notation for an ordinary `BBJ` standing at `here`, no instruction of its
own (R56). -/
def Instr.halt (x here : Addr) : Instr := .bbj x x here

end Sys2Proof
end

