-- ==== Sys2Proof/WellFormed.lean ====
section
/-! DEFINITION. Well-formedness. An instruction's field values are not restricted at all (spec/30_encoding.md R54), so
every term of `Instr` is well-formed; what the spec does restrict is where an instruction stands (R62, R138) and what
the host hands to the block (spec/41_host_operations.md R84). -/

namespace Sys2Proof

/-- "Field values are not restricted either" (R54): the fields' widths are in their type. -/
def Instr.wellFormed : Instr → Bool
  | .bbj _ _ _ => true

/-- Where an instruction executes without a fault: at `pc <= 0xFFFFF9`, so that `pc + 6` is a legal address argument
(R62, R138). -/
def wellPlaced (pc : Addr) : Bool := pc.toNat + 6 ≤ Config.addrMax

/-- The host's duties on one operation (R84): an image fits the store, a key index is 0 to 15. -/
def Machine.HostOp.dutiful : Machine.HostOp → Bool
  | .loadImage bytes => bytes.length ≤ Config.memSize
  | .keyPress k => k < Config.nKeys
  | .keyRelease k => k < Config.nKeys
  | .reset => true
  | .start => true
  | .stop => true
  | .tick _ => true
  | .isRunning => true
  | .inspect => true
  | .readFault => true

end Sys2Proof
end

