-- ==== Sys2Proof/Decode.lean ====
section
/-! DEFINITION. The decoder and the encoder (spec/30_encoding.md R50 to R54). The decoder is total: nine bytes are always
the one instruction, fewer are rejected by name. -/

namespace Sys2Proof

/-- The 24-bit big-endian value of three bytes, the first the most significant (R31, R51). -/
def addrOfBytes (hi mid lo : Byte) : Addr := hi ++ mid ++ lo

/-- The three bytes of a 24-bit value as they stand in memory, most significant first (R31, R51). -/
def bytesOfAddr (x : Addr) : List Byte :=
  [x.extractLsb' 16 8, x.extractLsb' 8 8, x.extractLsb' 0 8]

/-- Why bytes are not an instruction. No pattern of bits is illegal (R54): only too few bytes can be at fault. -/
inductive DecodeError where
  /-- Fewer than nine bytes were given; `length` says how many. -/
  | truncated (length : Nat)
  deriving DecidableEq, Repr

/-- Read one instruction off the front of a byte sequence: `A`, `B`, `C`, three bytes each, big-endian (R50, R51, R52),
and the bytes after it. -/
def decode : List Byte → Except DecodeError (Instr × List Byte)
  | a2 :: a1 :: a0 :: b2 :: b1 :: b0 :: c2 :: c1 :: c0 :: rest =>
    .ok (.bbj (addrOfBytes a2 a1 a0) (addrOfBytes b2 b1 b0) (addrOfBytes c2 c1 c0), rest)
  | bytes => .error (.truncated bytes.length)

/-- The nine bytes of an instruction (R50, R51). -/
def encode : Instr → List Byte
  | .bbj a b c => bytesOfAddr a ++ bytesOfAddr b ++ bytesOfAddr c

/-- The nine bytes of a 72-bit instruction word as they stand in memory: "big-endian: byte at pc is bits 71..64"
(opcode_table.json, R51). -/
def bytesOfTableWord (w : BitVec 72) : List Byte :=
  [w.extractLsb' 64 8, w.extractLsb' 56 8, w.extractLsb' 48 8, w.extractLsb' 40 8, w.extractLsb' 32 8,
   w.extractLsb' 24 8, w.extractLsb' 16 8, w.extractLsb' 8 8, w.extractLsb' 0 8]

/-- The 72-bit word whose low `nbits` bits are those of `w` and whose other bits are 0 (log 28). -/
def tableWord (nbits w : Nat) : BitVec 72 := BitVec.ofNat 72 (w % 2 ^ nbits)

/-- The instruction the decoder reads from a row of the opcode table. The row is ONE word of 72 bits, bit 0 its least
significant bit, stored big-endian (log 28). No instruction is longer than 72 bits. -/
def decodeTableWord (nbits w : Nat) : Option Instr :=
  if nbits ≤ 72 then
    match decode (bytesOfTableWord (tableWord nbits w)) with
    | .ok (i, _) => some i
    | .error _ => none
  else none

end Sys2Proof
end

