-- ==== Sys2Proof/Machine/State.lean ====
section
/-! DEFINITION. The machine's state as plain data, why a step can stop, and the state after reset
(spec/10_state.md R10 to R23). There are no general registers and no flags (R10, R12). -/

namespace Sys2Proof.Machine

/-- The byte store `M` (R13), as a list of (address, byte) pairs in canonical form: addresses strictly rising, none
listed with the byte an unlisted address reads as (`Memory.wf`). -/
abbrev Memory := List Host.Cell

/-- The state `(M, KEYS, LFT, RUN, FAULT)` of spec/10_state.md, the transients of a frame in progress (R19), and two
fields of the model's own, `pending` and `reply`, which hold the outside world's side of the interface as data. -/
structure State where
  /-- `M`, which also holds `KEYWORD`, `PCSTART`, `FBPAGE` and `AUDPTR` (R13, R14). -/
  mem : Memory
  /-- `KEYS`, the input encoder's key-state word (R15). -/
  keys : KeyWord
  /-- `LFT`, the scheduler's `lastFrameTime` (R16). -/
  lft : Time
  /-- `RUN`, the running flag (R17). -/
  run : Bool
  /-- `FAULT`, the fault latch (R18). -/
  fault : Option ErrorRecord
  /-- The frame in progress, with `pc` and the iteration counter while a burst runs (R11, R19). -/
  phase : Phase
  /-- MODEL'S OWN: the host operations still to come, oldest first (log 7). -/
  pending : List HostOp
  /-- MODEL'S OWN: the result of the last completed host operation (log 8). -/
  reply : Option Reply
  deriving DecidableEq, Repr

/-- Why a step can stop with a fault. `OutOfBounds` is not here: its entry is described by the spec, so it is a next
state (R112, log 14). -/
inductive Fault where
  /-- Raised by a meaning asked to run while no burst is in progress: there is no `pc` then (R11, R19). `step` never
  asks for it. Safe (log 13). -/
  | noBurst
  deriving DecidableEq, Repr

/-- Why a step can be refused. -/
inductive Refusal where
  /-- An arm of `exec` whose instruction has no meaning yet; no arm of this model is. Safe. -/
  | notModelled (mnemonic : String)
  /-- Raised by `step` if the decoder rejected the bytes at `pc`; a fetch always gives nine bytes, which are always an
  instruction (R54), so it never happens. Safe. -/
  | undecodable (length : Nat)
  deriving DecidableEq, Repr

/-- The state after `Reset()` when `LFT` starts at `t` (R23, R70): an all-zero store, no key pressed, stopped, no fault,
no frame in progress. Every value is the spec's own decision (D2, D3, D4, D7; logs 1, 2, 3, 5). -/
def State.resetAt (t : Time) : State :=
  { mem := [], keys := 0, lft := t, run := false, fault := none, phase := .idle, pending := [], reply := none }

/-- The machine right after reset: `LFT = T0` (R23; log 4). -/
def State.reset : State := State.resetAt Config.t0

end Sys2Proof.Machine
end

