-- ==== Sys2Proof/Machine/Memory.lean ====
section
/-! DEFINITION. The byte store as a list in canonical form (spec/10_state.md R13): reading and writing one byte with no
check (`M[i]` of R7), and replacing the whole store by an image (R72). -/

namespace Sys2Proof.Machine

/-- What a byte reads as that nothing has written: the store is all zero after reset and beyond an image (R23, R72;
log 1). -/
def Memory.unlisted : Byte := 0x00

/-- The canonical form: addresses strictly rising, no entry equal to what an unlisted address reads as, every address
inside the store. -/
abbrev Memory.wf (m : Memory) : Prop :=
  m.Pairwise (fun c d => c.1 < d.1) ∧ ∀ c ∈ m, c.2 ≠ Memory.unlisted ∧ c.1 < Config.memSize

/-- `M[i]` read with no check (R7). -/
def Memory.byteAt : Memory → Nat → Byte
  | [], _ => Memory.unlisted
  | (k, v) :: rest, i => if k = i then v else Memory.byteAt rest i

/-- The list without the entry at `i`. -/
def Memory.unlist (m : Memory) (i : Nat) : Memory := m.filter (fun c => c.1 ≠ i)

/-- The list with an entry put in at its place in the rising order. -/
def Memory.enlist (i : Nat) (v : Byte) : Memory → Memory
  | [] => [(i, v)]
  | (k, w) :: rest => if i < k then (i, v) :: (k, w) :: rest else (k, w) :: Memory.enlist i v rest

/-- `M[i] <- v` with no check (R7), keeping the canonical form: writing the unlisted value removes the entry. -/
def Memory.storeAt (m : Memory) (i : Nat) (v : Byte) : Memory :=
  if v = Memory.unlisted then m.unlist i else Memory.enlist i v (m.unlist i)

/-- The bytes of an image laid from index `i` upwards, zeros left unlisted (R72). -/
def Memory.ofBytesAt (i : Nat) : List Byte → Memory
  | [] => []
  | v :: rest =>
    if v = Memory.unlisted then Memory.ofBytesAt (i + 1) rest else (i, v) :: Memory.ofBytesAt (i + 1) rest

/-- The store an image makes: image byte `i` at index `i`, the rest zero (R72). -/
def Memory.ofImage (bytes : List Byte) : Memory := Memory.ofBytesAt 0 bytes

/-- Several bytes laid at consecutive indices from `i` upwards, with no check. -/
def Memory.storeBytes (m : Memory) (i : Nat) : List Byte → Memory
  | [] => m
  | v :: rest => Memory.storeBytes (m.storeAt i v) (i + 1) rest

end Sys2Proof.Machine
end

