-- ==== Sys2Proof/Machine/Ops.lean ====
section
/-! DEFINITION. The access primitives (spec/20_memory.md R33 to R37), the named operations on the state, and taking the
`OutOfBounds` exception (spec/60_exceptions.md R112). -/

namespace Sys2Proof.Machine

/-- The numeric code of an error kind (R111; the spec's own choice D12, log 20). -/
def ErrorKind.code : ErrorKind → Nat
  | .outOfBounds => 1
  | .imageTooLarge => 2

/-- `OutOfBounds(a)`, recording the offending address argument (R111). -/
def ErrorRecord.oob (a : Nat) : ErrorRecord := ⟨.outOfBounds, a⟩

/-- `ImageTooLarge(L)`, recording the length (R111). -/
def ErrorRecord.tooLarge (length : Nat) : ErrorRecord := ⟨.imageTooLarge, length⟩

/-- `Check(addr)`: only the address argument is checked, not the end of the access (R33). -/
def check (a : Nat) : Except ErrorRecord Unit :=
  if a > Config.addrMax then .error (.oob a) else .ok ()

/-- `MemRead(addr, 1)`, the document's `readByte` (R34). -/
def memRead1 (m : Memory) (a : Nat) : Except ErrorRecord Byte := do
  check a
  return m.byteAt a

/-- `MemWrite(addr, 1, b)`, the document's `writeByte` (R34). -/
def memWrite1 (m : Memory) (a : Nat) (v : Byte) : Except ErrorRecord Memory := do
  check a
  return m.storeAt a v

/-- The four bytes from `a` upwards, big-endian, with no check (R31, R35). -/
def window32 (m : Memory) (a : Nat) : BitVec 32 := m.byteAt a ++ m.byteAt (a + 1) ++ m.byteAt (a + 2) ++ m.byteAt (a + 3)

/-- The 4-byte window at `a` with its low-order byte discarded, with no check (R35). -/
def window24 (m : Memory) (a : Nat) : Addr := (window32 m a >>> 8).setWidth 24

/-- `MemRead(addr, 4)`; the window may reach into the headroom (R35). -/
def memRead4 (m : Memory) (a : Nat) : Except ErrorRecord (BitVec 32) := do
  check a
  return window32 m a

/-- `Read24(addr)`, the document's `readUint24`: `MemRead(addr, 4) >> 8` (R35). -/
def read24 (m : Memory) (a : Nat) : Except ErrorRecord Addr := do
  let w ← memRead4 m a
  return (w >>> 8).setWidth 24

/-- `MemWrite(addr, 2, v)`, the document's `writeUint16`, big-endian; the second byte may land in the headroom (R36). -/
def memWrite2 (m : Memory) (a : Nat) (v : BitVec 16) : Except ErrorRecord Memory := do
  check a
  return (m.storeAt a (v.extractLsb' 8 8)).storeAt (a + 1) (v.extractLsb' 0 8)

/-- `CopyByte(s, d)`, the document's `copyByte`: both raw addresses are checked before anything is read, the source
first (R37; D17, log 24), both are resolved before the byte is written. -/
def copyByte (m : Memory) (s d : Nat) : Except ErrorRecord Memory := do
  check s
  check d
  let a ← read24 m s
  let b ← read24 m d
  let v ← memRead1 m a.toNat
  memWrite1 m b.toNat v

/-- `M[a]` for a resolved address, which is always in range (R37). -/
def State.loadByte (s : State) (a : Addr) : Byte := s.mem.byteAt a.toNat

/-- `M[a] <- v` for a resolved address, which is always in range (R37). -/
def State.storeByte (s : State) (a : Addr) (v : Byte) : State := { s with mem := s.mem.storeAt a.toNat v }

/-- Replace the whole store, by an access primitive's result or an image. -/
def State.setMem (s : State) (m : Memory) : State := { s with mem := m }

/-- Move to another part of the frame, or give `pc` and the iteration counter new values (R11, R19). -/
def State.setPhase (s : State) (p : Phase) : State := { s with phase := p }

/-- `KEYS <- k` (R15). -/
def State.setKeys (s : State) (k : KeyWord) : State := { s with keys := k }

/-- `LFT <- t` (R16). -/
def State.setLft (s : State) (t : Time) : State := { s with lft := t }

/-- `RUN <- r` (R17). -/
def State.setRun (s : State) (r : Bool) : State := { s with run := r }

/-- Hand the host the result of its operation (R71, R82). -/
def State.answer (s : State) (r : Reply) : State := { s with reply := some r }

/-- TAKING `OutOfBounds` IN A FRAME (R112, R81): the frame is aborted, `FAULT` latches the error, `RUN` is cleared, the
tick reports the fault. Nothing is saved for a handler and control goes nowhere inside the machine; `M` keeps every
write so far, `KEYS` and `LFT` are untouched. There is no return from it (R114): `LoadImage` and `Reset` clear the latch
(`State.loadImage` and `State.resetBlock` in HostOps.lean). -/
def State.takeFault (s : State) (e : ErrorRecord) : State :=
  { s with fault := some e, run := false, phase := .idle, reply := some (.fault e) }

end Sys2Proof.Machine
end

