-- ==== Sys2Proof/Machine/Operands.lean ====
section
/-! DEFINITION. The one operand form, a 24-bit big-endian address in the instruction's own bytes (spec/30_encoding.md R51,
R52), and the bytes of an instruction where it stands. -/

namespace Sys2Proof.Machine

/-- The nine bytes standing at `pc` (R50). This is the layout `I` of R51, "a description of the layout, not a single
fetch": reads have no side effects (R39), and for `pc` near the top the bytes reach into the headroom, where the
store still has them (`pc + 8 <= 0x1000007`; log 12). -/
def fetch (m : Memory) (pc : Addr) : List Byte :=
  let p := pc.toNat
  [m.byteAt p, m.byteAt (p + 1), m.byteAt (p + 2), m.byteAt (p + 3), m.byteAt (p + 4), m.byteAt (p + 5), m.byteAt (p + 6), m.byteAt (p + 7),
   m.byteAt (p + 8)]

/-- A byte that stood at index `i`, after `v` was stored at `b`. -/
def afterStore (b : Addr) (v : Byte) (i : Nat) (old : Byte) : Byte := if b.toNat = i then v else old

/-- The jump target of a `BBJ` standing at `pc` whose `C` field held `c`, after it stored `v` at `b`. `C` is read after
the store, so a store into `pc+6 .. pc+8` changes the jump of this same execution (R61 corner case c, R45 b, R136;
DEDUCED, log 11). -/
def jumpTarget (pc b : Addr) (v : Byte) (c : Addr) : Addr :=
  let p := pc.toNat + 6
  addrOfBytes (afterStore b v p (c.extractLsb' 16 8)) (afterStore b v (p + 1) (c.extractLsb' 8 8))
    (afterStore b v (p + 2) (c.extractLsb' 0 8))

end Sys2Proof.Machine
end

