-- ==== Sys2Proof/Machine/ByteByteJump.lean ====
section
/-! DEFINITION. The meaning of `BBJ`, and the counting of a burst's iterations (spec/40_bytebytejump.md). -/

namespace Sys2Proof.Machine

/-- `BBJ A, B, C` standing at the burst's `pc` (R61): check `pc + 3`, copy `M[A]` to `M[B]`, check `pc + 6`, jump to `C`
as it stands after the store. `pc` itself is always legal (R11, R62). With `pc` in `0xFFFFFD..0xFFFFFF` `OutOfBounds` is
taken before anything is read; with `pc` in `0xFFFFFA..0xFFFFFC` it is taken after the copy (R62; log 15). Outside a
burst there is no `pc` (R19; log 13). -/
def execBbj (a b c : Addr) (s : State) : Host.Outcome State Fault Refusal :=
  match s.phase with
  | .burst pc n =>
    match check (pc.toNat + 3) with
    | .error e => .next (s.takeFault e)
    | .ok _ =>
      let v := s.loadByte a
      let stored := s.storeByte b v
      match check (pc.toNat + 6) with
      | .error e => .next (stored.takeFault e)
      | .ok _ => .next (stored.setPhase (.burst (jumpTarget pc b v c) n))
  | .idle => .fault .noBurst
  | .decode => .fault .noBurst

/-- After an instruction the iteration counter moves on; after the 65536th the burst ends and `pc` is abandoned, written
nowhere (R64, R11). An aborted frame has no counter (R112). -/
def State.countIteration (s : State) : State :=
  match s.phase with
  | .burst pc n => s.setPhase (if n + 1 < Config.burstLen then .burst pc (n + 1) else .decode)
  | .idle => s
  | .decode => s

end Sys2Proof.Machine
end

