-- ==== Sys2Proof/Machine/Peripherals.lean ====
section
/-! DEFINITION. The three memory-mapped peripherals: input encoder, video decoder with its palette, audio decoder
(spec/42_io_decoders.md). -/

namespace Sys2Proof.Machine

/-- `KEYWORD`'s address (R14). -/
def keywordAddr : Nat := 0x000000

/-- `PCSTART`'s address (R14). -/
def pcStartAddr : Nat := 0x000002

/-- `FBPAGE`'s address (R14). -/
def fbPageAddr : Nat := 0x000005

/-- `AUDPTR`'s address (R14). -/
def audPtrAddr : Nat := 0x000006

/-- The input encoder's write at the start of every frame, `MemWrite(0x000000, 2, KEYS)` (R91). -/
def writeKeyword (m : Memory) (keys : KeyWord) : Except ErrorRecord Memory := memWrite2 m keywordAddr keys

/-- `KEYS` with bit `k` set; an index of 16 or more is ignored (R74; D9, log 17). -/
def pressKey (keys : KeyWord) (k : Nat) : KeyWord := if k < Config.nKeys then keys ||| (1#16 <<< k) else keys

/-- `KEYS` with bit `k` cleared and the other 15 kept; an index of 16 or more is ignored (R75; D9, log 17). -/
def releaseKey (keys : KeyWord) (k : Nat) : KeyWord := if k < Config.nKeys then keys &&& ~~~(1#16 <<< k) else keys

/-- A palette component: a multiple of `0x33` (R97). -/
def cubeComponent (i : Nat) : Byte := BitVec.ofNat 8 (i * 0x33)

/-- `PALETTE[i]`: the 6x6x6 cube, red slowest and blue fastest, then 40 opaque black entries (R97). -/
def palette (i : Byte) : Rgba :=
  if i.toNat ≤ 215 then
    ⟨cubeComponent (i.toNat / 36), cubeComponent (i.toNat / 6 % 6), cubeComponent (i.toNat % 6), 0xFF⟩
  else ⟨0x00, 0x00, 0x00, 0xFF⟩

/-- The packed 32-bit form `R << 24 | G << 16 | B << 8 | A` (R98; the spec's own choice D11, log 19). -/
def Rgba.packed (p : Rgba) : BitVec 32 := p.r ++ p.g ++ p.b ++ p.a

/-- The framebuffer's base address, `M[5] << 16` (R95). -/
def fbBase (m : Memory) : Addr := m.byteAt fbPageAddr ++ 0#16

/-- `V[i]`, the pixel `x = i mod 256`, `y = i div 256` (R96). Its address is at most `0xFFFFFF`: no check can fail (R95). -/
def pixel (m : Memory) (i : Nat) : Rgba := palette (m.byteAt ((fbBase m).toNat + i))

/-- `VideoDecode()` (R96). -/
def videoDecode (m : Memory) : VideoOut := Vector.ofFn (fun i => pixel m i.val)

/-- One sample, `sext_8(byte) / 128` as an exact rational (R101; D23, log 27). -/
def sample (b : Byte) : Rat := (b.toInt : Rat) / 128

/-- The first sample address above `0xFFFFFF`, if the audio region at `p` has one (R102; D10, log 18). -/
def audioOverrun (p : Nat) : Option Nat :=
  ((List.range Config.audioLen).map (p + ·)).find? (fun a => a > Config.addrMax)

/-- `AudioDecode()`: 256 samples from `Read24(0x000006)` upwards; the first address past the top raises `OutOfBounds`
(R100, R101, R102). -/
def audioDecode (m : Memory) : Except ErrorRecord AudioOut := do
  let p ← read24 m audPtrAddr
  match audioOverrun p.toNat with
  | some a => .error (.oob a)
  | none => return Vector.ofFn (fun i => sample (m.byteAt (p.toNat + i.val)))

end Sys2Proof.Machine
end

