-- ==== Sys2Proof/Machine/Frame.lean ====
section
/-! DEFINITION. The two ends of a frame and the scheduler's decision to run one (spec/41_host_operations.md R78, R80, R81). -/

namespace Sys2Proof.Machine

/-- The remainder of exact rationals, `d - floor(d / f) * f` (R6; D6, log 16). -/
def timeMod (d f : Time) : Time := d - ((d / f).floor : Time) * f

/-- What `Tick(time)` decides (R78): `none` where the tick is a no-op (stopped, D8; or `delta < 50/3`), else the new
`LFT`, `time - (delta mod FRAME_DURATION)`. -/
def State.admits (s : State) (time : Time) : Option Time :=
  if s.run then
    let delta := time - s.lft
    if delta < Config.frameDuration then none else some (time - timeMod delta Config.frameDuration)
  else none

/-- The opening of a frame: the keyboard write, then `pc <- Read24(0x000002)` (R80, R91, R63). Neither can raise (R63,
R91). The host waits for its tick's result, so there is no reply yet (log 9). -/
def State.beginFrame (s : State) : State :=
  match writeKeyword s.mem s.keys with
  | .error e => s.takeFault e
  | .ok m =>
    match read24 m pcStartAddr with
    | .error e => s.takeFault e
    | .ok pc => { s with mem := m, phase := .burst pc 0, reply := none }

/-- The close of a frame: both decodes from `M` as the burst left it, then both outputs are emitted; if the audio decode
raises, neither is (R80, R81; D16, log 23). -/
def State.finishFrame (s : State) : State :=
  let video := videoDecode s.mem
  match audioDecode s.mem with
  | .error e => s.takeFault e
  | .ok audio => (s.setPhase .idle).answer (.frame video audio)

end Sys2Proof.Machine
end

