-- ==== Sys2Proof/Machine/HostOps.lean ====
section
/-! DEFINITION. The host's operations (spec/41_host_operations.md R70 to R84), each atomic on a machine between frames. A
tick that admits a frame only opens it here; Step.lean runs it, and Atomic.lean has the whole tick as one transition. -/

namespace Sys2Proof.Machine

/-- `Reset()` (R70). The host's further operations are no state of the block: they stay. -/
def State.resetBlock (s : State) : State := { State.reset with pending := s.pending, reply := some .done }

/-- `LoadImage(bytes)`: the whole store is replaced and `FAULT` cleared; an image longer than the store is refused and
changes nothing (R72, R73, R113; D7, D14, log 22). -/
def State.loadImage (s : State) (bytes : List Byte) : State :=
  if bytes.length > Config.memSize then s.answer (.refusedImage (.tooLarge bytes.length))
  else { s with mem := Memory.ofImage bytes, fault := none, reply := some .loaded }

/-- `Start()`: ignored while a fault is latched; does not touch `LFT` (R76; D7, D21). -/
def State.start (s : State) : State :=
  if s.fault = none then (s.setRun true).answer .done else s.answer .done

/-- `Stop()` (R77). -/
def State.stop (s : State) : State := (s.setRun false).answer .done

/-- `Tick(time)` up to the point where the burst starts (R78, R80): a no-op, or `LFT` is advanced and the frame opened. -/
def State.tickOpen (s : State) (time : Time) : State :=
  match s.admits time with
  | none => s.answer .idle
  | some t => (s.setLft t).beginFrame

/-- `KEYWORD` as it stands in `M`, `M[0] << 8 | M[1]` (R83, R92). -/
def keyword (m : Memory) : KeyWord := m.byteAt keywordAddr ++ m.byteAt (keywordAddr + 1)

/-- `Inspect()`: the four memory-mapped words, from `M` between frames (R83; D18, log 26). -/
def inspection (m : Memory) : Inspection :=
  { keyboardWord := keyword m, pc := window24 m pcStartAddr, framebuffer := fbBase m, audio := window24 m audPtrAddr }

/-- One host operation on a machine between frames (R71). -/
def HostOp.apply (op : HostOp) (s : State) : State :=
  match op with
  | .reset => s.resetBlock
  | .loadImage bytes => s.loadImage bytes
  | .keyPress k => (s.setKeys (pressKey s.keys k)).answer .done
  | .keyRelease k => (s.setKeys (releaseKey s.keys k)).answer .done
  | .start => s.start
  | .stop => s.stop
  | .tick time => s.tickOpen time
  | .isRunning => s.answer (.running s.run)
  | .inspect => s.answer (.inspected (inspection s.mem))
  | .readFault => s.answer (.latch s.fault)

/-- Between frames the machine performs the host's next operation, and waits where there is none (R71, R84, R142; logs 7
and 32). -/
def State.hostStep (s : State) : State :=
  match s.pending with
  | [] => s
  | op :: rest => op.apply { s with pending := rest }

end Sys2Proof.Machine
end

