-- ==== Sys2Proof/Machine/Step.lean ====
section
/-! DEFINITION. One step of the machine (log 6): between frames, the host's next operation; in a burst, one instruction;
after a burst, the decoders. -/

namespace Sys2Proof.Machine

/-- In a burst: the instruction standing at `pc`, then the iteration count (R61, R64). -/
def instructionStep (s : State) (pc : Addr) : Host.Outcome State Fault Refusal :=
  match decode (fetch s.mem pc) with
  | .error (.truncated length) => .refused (.undecodable length)
  | .ok (i, _) =>
    match exec i s with
    | .next t => .next t.countIteration
    | .fault f => .fault f
    | .refused r => .refused r

/-- One step (R71, R80). -/
def step (s : State) : Host.Outcome State Fault Refusal :=
  match s.phase with
  | .idle => .next s.hostStep
  | .burst pc _ => instructionStep s pc
  | .decode => .next s.finishFrame

/-- `s` with an instruction word of the opcode table stored where the next step fetches: at the burst's `pc`, or, where
no burst is in progress, at the address `PCSTART` gives, with a burst started there (R63; log 10). A burst runs only
while `RUN = 1` and no fault is latched (R17, R114), so starting one sets both. -/
def State.withFetchWord (s : State) (nbits w : Nat) : State :=
  let bytes := bytesOfTableWord (tableWord nbits w)
  match s.phase with
  | .burst pc _ => s.setMem (s.mem.storeBytes pc.toNat bytes)
  | .idle =>
    let pc := window24 s.mem pcStartAddr
    { s with mem := s.mem.storeBytes pc.toNat bytes, phase := .burst pc 0, run := true, fault := none }
  | .decode =>
    let pc := window24 s.mem pcStartAddr
    { s with mem := s.mem.storeBytes pc.toNat bytes, phase := .burst pc 0, run := true, fault := none }

end Sys2Proof.Machine
end

