-- ==== Sys2Proof/Machine/Atomic.lean ====
section
/-! DEFINITION. The instruction, the burst, the frame and the tick as spec/ writes them in pseudocode, each one transition
(spec/40_bytebytejump.md R61, R64; 41_host_operations.md R78, R80, R81; D20). Step.lean runs the same machine an
instruction at a time; the obligations say the two agree (log 6). -/

namespace Sys2Proof.Machine

/-- R61's pseudocode read through memory: `CopyByte(pc, pc + 3)`, then `pc <- Read24(pc + 6)`. The store as it stands
afterwards, and the new `pc` or what was raised; a raise by the second step leaves the copy done (R62). -/
def bbjAt (m : Memory) (pc : Addr) : Memory × Except ErrorRecord Addr :=
  match copyByte m pc.toNat (pc.toNat + 3) with
  | .error e => (m, .error e)
  | .ok m' => (m', read24 m' (pc.toNat + 6))

/-- `k` instructions from `pc`, stopping at the first that raises (R64). -/
def burstLoop : Nat → Memory → Addr → Memory × Except ErrorRecord Addr
  | 0, m, pc => (m, .ok pc)
  | k + 1, m, pc =>
    match bbjAt m pc with
    | (m', .error e) => (m', .error e)
    | (m', .ok pc') => burstLoop k m' pc'

/-- `Burst()` (R63, R64): the store afterwards, and the final `pc`, which is then abandoned, or what was raised. -/
def burst (m : Memory) : Memory × Except ErrorRecord Addr :=
  match read24 m pcStartAddr with
  | .error e => (m, .error e)
  | .ok pc => burstLoop Config.burstLen m pc

/-- `Frame()` (R80, R81). -/
def State.frame (s : State) : State :=
  match writeKeyword s.mem s.keys with
  | .error e => s.takeFault e
  | .ok m =>
    match burst m with
    | (m', .error e) => (s.setMem m').takeFault e
    | (m', .ok _) => (s.setMem m').finishFrame

/-- `Tick(time)` as one transition (R78). -/
def State.tick (s : State) (time : Time) : State :=
  match s.admits time with
  | none => s.answer .idle
  | some t => (s.setLft t).frame

/-- One host operation as one transition, a tick with its whole frame (R71, R47). -/
def HostOp.perform (op : HostOp) (s : State) : State :=
  match op with
  | .tick time => s.tick time
  | .reset => HostOp.apply .reset s
  | .loadImage bytes => HostOp.apply (.loadImage bytes) s
  | .keyPress k => HostOp.apply (.keyPress k) s
  | .keyRelease k => HostOp.apply (.keyRelease k) s
  | .start => HostOp.apply .start s
  | .stop => HostOp.apply .stop s
  | .isRunning => HostOp.apply .isRunning s
  | .inspect => HostOp.apply .inspect s
  | .readFault => HostOp.apply .readFault s

end Sys2Proof.Machine
end

