-- ==== Sys2Proof/Safety.lean ====
section
/-! DEFINITION. What counts as a safe run, and the invariants of the machine, in the terms the statements use. -/

namespace Sys2Proof.Machine

/-- No fault is latched. "The state `FAULT != none` is not a normal end of a program" (R112): a claim about a program
takes this as its premise or has it as its conclusion. -/
def State.faultFree (s : State) : Prop := s.fault = none

/-- A run of at most `k` steps from `s` that never stops and never latches a fault. -/
def SafeRun (s : State) (k : Nat) : Prop :=
  ∀ j ≤ k, ∃ t, Host.Core.run Sys2Proof.core j s = .next t ∧ t.faultFree

/-- A frame is in progress: a burst, or its decodes. -/
def Phase.inFrame : Phase → Bool
  | .idle => false
  | .burst _ _ => true
  | .decode => true

/-- What the fault latch can hold: an `OutOfBounds` record whose address argument is one of the three just past the top
(R18, R62, R102, R111). -/
def ErrorRecord.latchable (e : ErrorRecord) : Prop :=
  e.kind = .outOfBounds ∧ Config.addrMax < e.value ∧ e.value ≤ 0x1000002

/-- The iteration counter of a burst is below 65536 (R19, R64). -/
def Phase.counted : Phase → Prop
  | .idle => True
  | .burst _ n => n < Config.burstLen
  | .decode => True

/-- The machine's invariant: the store is canonical (R13); a latched fault is an `OutOfBounds` just past the top, and the
machine is then stopped (R18, R112, R114); a frame is in progress only while `RUN = 1` (R78); the iteration counter is
in range (R19). -/
structure State.Inv (s : State) : Prop where
  memory : s.mem.wf
  latch : ∀ e, s.fault = some e → e.latchable ∧ s.run = false
  running : s.phase.inFrame = true → s.run = true
  counter : s.phase.counted

/-- `LFT` is on the grid `T0 + j * 50/3` (R79 b). -/
def State.onGrid (s : State) : Prop := ∃ j : Nat, s.lft = Config.t0 + j * Config.frameDuration

end Sys2Proof.Machine

namespace Sys2Proof.Machine

/-- The block registers outside the store, and the host's side of the interface, are the same in both states
(R12: "No instruction has a side effect on any state but one byte of `M` and the transient `pc`"). -/
def State.sameRegisters (s t : State) : Prop :=
  t.keys = s.keys ∧ t.lft = s.lft ∧ t.run = s.run ∧ t.fault = s.fault ∧ t.pending = s.pending ∧ t.reply = s.reply

/-- `t` is what `OutOfBounds(a)` in a frame of `s` leaves, apart from the store (R112): the fault is latched and reported,
the machine is stopped, no frame is in progress; `KEYS`, `LFT` and the host's queue are untouched. -/
def State.faultedAt (s t : State) (a : Nat) : Prop :=
  t.fault = some (.oob a) ∧ t.run = false ∧ t.phase = .idle ∧ t.reply = some (.fault (.oob a)) ∧
    t.keys = s.keys ∧ t.lft = s.lft ∧ t.pending = s.pending

/-- Every byte outside `changed` reads in `m'` as it reads in `m`. -/
def sameBytesExcept (changed : Nat → Prop) (m m' : Memory) : Prop :=
  ∀ i, ¬ changed i → m'.byteAt i = m.byteAt i

/-- The next host operation waiting at a machine between frames. -/
def State.awaits (s : State) (op : HostOp) (rest : List HostOp) : Prop :=
  s.phase = .idle ∧ s.pending = op :: rest

end Sys2Proof.Machine
end

