-- ==== Sys2Proof/Certificates/Slice0/Obligations.lean ====
section
/-! DEFINITION. The statements for the provers. A docstring names the rule of spec/ a statement formalises, and the
decision of the spec or the log entry any clause rests on. -/

open Sys2Proof Sys2Proof.Machine

/-! ### Encoding (spec/30_encoding.md) -/

/-- R50 to R52: decoding the encoding of any instruction, followed by any bytes, gives the instruction back and leaves the
bytes after it. -/
def Obligations.DecodeOfEncodeIsTheInstruction : Prop :=
  ∀ (i : Instr) (rest : List Byte), i.wellFormed = true → decode (encode i ++ rest) = .ok (i, rest)

/-- R54: a byte sequence has one meaning: what is decoded encodes to the very bytes read. -/
def Obligations.EncodeOfDecodeIsTheBytes : Prop :=
  ∀ (bytes rest : List Byte) (i : Instr), decode bytes = .ok (i, rest) → encode i ++ rest = bytes

/-- R53, R51: every 72-bit pattern is `BBJ`, with `A = I[71:48]`, `B = I[47:24]`, `C = I[23:0]`; as bytes, three
big-endian fields of three bytes each. -/
def Obligations.EveryPatternIsByteByteJump : Prop :=
  (∀ w : BitVec 72, decodeTableWord 72 w.toNat =
    some (.bbj (w.extractLsb' 48 24) (w.extractLsb' 24 24) (w.extractLsb' 0 24))) ∧
  (∀ b0 b1 b2 b3 b4 b5 b6 b7 b8 : Byte, ∃ a b c : Addr,
    decode [b0, b1, b2, b3, b4, b5, b6, b7, b8] = .ok (.bbj a b c, []) ∧
    a.toNat = b0.toNat * 65536 + b1.toNat * 256 + b2.toNat ∧
    b.toNat = b3.toNat * 65536 + b4.toNat * 256 + b5.toNat ∧
    c.toNat = b6.toNat * 65536 + b7.toNat * 256 + b8.toNat)

/-- R50, R54: the only bytes the decoder rejects are too few, and it says how many there were. -/
def Obligations.OnlyTooFewBytesAreRejected : Prop :=
  ∀ bytes : List Byte,
    (9 ≤ bytes.length → ∃ i, decode bytes = .ok (i, bytes.drop 9)) ∧
    (bytes.length < 9 → decode bytes = .error (.truncated bytes.length))

/-- R57: the two encodings written out in the spec decode to the instructions they stand for. -/
def Obligations.SpecExampleWordsDecode : Prop :=
  decode [0x00, 0x00, 0x30, 0x01, 0x80, 0x40, 0x00, 0x00, 0x12] = .ok (.bbj 0x000030 0x018040 0x000012, []) ∧
  decode [0x00, 0x00, 0x09, 0x00, 0x00, 0x09, 0x00, 0x00, 0x09] = .ok (.bbj 0x000009 0x000009 0x000009, []) ∧
  encode (.bbj 0x000030 0x018040 0x000012) = [0x00, 0x00, 0x30, 0x01, 0x80, 0x40, 0x00, 0x00, 0x12]

/-! ### The access primitives (spec/20_memory.md) -/

/-- R33: every primitive checks its address argument, and nothing else: it raises `OutOfBounds` of that argument above
`0xFFFFFF` and never raises otherwise, though a 2-byte or 4-byte access may then reach the headroom. -/
def Obligations.PrimitivesCheckOnlyTheirAddressArgument : Prop :=
  ∀ (m : Memory) (a d : Nat) (v : Byte) (w : BitVec 16),
    (0xFFFFFF < a →
      memRead1 m a = .error (.oob a) ∧ memWrite1 m a v = .error (.oob a) ∧ memRead4 m a = .error (.oob a) ∧
      read24 m a = .error (.oob a) ∧ memWrite2 m a w = .error (.oob a) ∧
      (d ≤ 0xFFFFFF → copyByte m a d = .error (.oob a) ∧ copyByte m d a = .error (.oob a))) ∧
    (a ≤ 0xFFFFFF →
      (∃ r, memRead1 m a = .ok r) ∧ (∃ r, memWrite1 m a v = .ok r) ∧ (∃ r, memRead4 m a = .ok r) ∧
      (∃ r, read24 m a = .ok r) ∧ (∃ r, memWrite2 m a w = .ok r) ∧ (d ≤ 0xFFFFFF → ∃ r, copyByte m a d = .ok r))

/-- R34: a byte written is the byte read back, every other byte stands, an address above `0xFFFFFF` raises, and the
headroom is out of reach. -/
def Obligations.ByteWrittenIsReadBack : Prop :=
  ∀ (m : Memory) (a : Nat) (v : Byte),
    (0xFFFFFF < a → memRead1 m a = .error (.oob a) ∧ memWrite1 m a v = .error (.oob a)) ∧
    (a ≤ 0xFFFFFF → memRead1 m a = .ok (m.byteAt a) ∧
      ∃ m', memWrite1 m a v = .ok m' ∧ memRead1 m' a = .ok v ∧ sameBytesExcept (· = a) m m' ∧
        ∀ i, 0x1000000 ≤ i → m'.byteAt i = m.byteAt i)

/-- R35: `Read24` is the big-endian value of three bytes, the 4-byte window's high 24 bits; the fourth byte of the window
does not matter. -/
def Obligations.Read24IsThreeBytesBigEndian : Prop :=
  ∀ (m : Memory) (a : Nat),
    (0xFFFFFF < a → memRead4 m a = .error (.oob a) ∧ read24 m a = .error (.oob a)) ∧
    (a ≤ 0xFFFFFF →
      (∃ w, memRead4 m a = .ok w ∧ w.toNat = (m.byteAt a).toNat * 16777216 + (m.byteAt (a + 1)).toNat * 65536 +
        (m.byteAt (a + 2)).toNat * 256 + (m.byteAt (a + 3)).toNat) ∧
      (∃ x, read24 m a = .ok x ∧ x.toNat =
        (m.byteAt a).toNat * 65536 + (m.byteAt (a + 1)).toNat * 256 + (m.byteAt (a + 2)).toNat) ∧
      ∀ v, read24 (m.storeAt (a + 3) v) a = read24 m a)

/-- R32, R36: a 16-bit write is big-endian and equals its two byte writes; reads of any width see the bytes last
written; at `0xFFFFFF` the second byte lands on the first headroom byte. -/
def Obligations.WriteUint16IsTwoBytesBigEndian : Prop :=
  ∀ (m : Memory) (a : Nat) (v : BitVec 16), a ≤ 0xFFFFFF →
    ∃ m', memWrite2 m a v = .ok m' ∧
      (m'.byteAt a).toNat = v.toNat / 256 ∧ (m'.byteAt (a + 1)).toNat = v.toNat % 256 ∧
      sameBytesExcept (fun i => i = a ∨ i = a + 1) m m' ∧
      (a + 1 ≤ 0xFFFFFF → memRead1 m' a = .ok (m'.byteAt a) ∧ memRead1 m' (a + 1) = .ok (m'.byteAt (a + 1))) ∧
      ∃ x, read24 m' a = .ok x ∧ x.toNat = v.toNat * 256 + (m.byteAt (a + 2)).toNat

/-- R37: with legal raw addresses `CopyByte` is `writeByte(readUint24(d), readByte(readUint24(s)))`, which never raises;
both addresses are resolved before the write. With one raw address out of range it raises for that one; with both, for
the source (the spec's own choice D17, log 24). -/
def Obligations.CopyByteMovesOneResolvedByte : Prop :=
  ∀ (m : Memory) (s d : Nat),
    (s ≤ 0xFFFFFF → d ≤ 0xFFFFFF → ∃ (a b : Addr) (v : Byte) (m' : Memory),
      read24 m s = .ok a ∧ read24 m d = .ok b ∧ memRead1 m a.toNat = .ok v ∧
      copyByte m s d = .ok m' ∧ memWrite1 m b.toNat v = .ok m' ∧
      m'.byteAt b.toNat = m.byteAt a.toNat ∧ sameBytesExcept (· = b.toNat) m m' ∧ (m.wf → a = b → m' = m)) ∧
    (0xFFFFFF < s → copyByte m s d = .error (.oob s)) ∧
    (s ≤ 0xFFFFFF → 0xFFFFFF < d → copyByte m s d = .error (.oob d))

/-! ### The instruction (spec/40_bytebytejump.md) -/

/-- R61, R12: where `pc + 6` is a legal address argument `BBJ A, B, C` completes: exactly the byte `M[B]` becomes `M[A]`,
every other byte stands, the next `pc` is `C`, each of whose bytes is the one just stored if the store hit it, and nothing
else changes. -/
def Obligations.ByteByteJumpCompletes : Prop :=
  ∀ (s : State) (a b c pc : Addr) (n : Nat), s.phase = .burst pc n → pc.toNat ≤ 0xFFFFF9 →
    ∃ (t : State) (pc' : Addr), exec (.bbj a b c) s = .next t ∧
      t.mem.byteAt b.toNat = s.mem.byteAt a.toNat ∧ sameBytesExcept (· = b.toNat) s.mem t.mem ∧
      t.phase = .burst pc' n ∧
      pc'.extractLsb' 16 8 = (if b.toNat = pc.toNat + 6 then s.mem.byteAt a.toNat else c.extractLsb' 16 8) ∧
      pc'.extractLsb' 8 8 = (if b.toNat = pc.toNat + 7 then s.mem.byteAt a.toNat else c.extractLsb' 8 8) ∧
      pc'.extractLsb' 0 8 = (if b.toNat = pc.toNat + 8 then s.mem.byteAt a.toNat else c.extractLsb' 0 8) ∧
      (b.toNat < pc.toNat + 6 ∨ pc.toNat + 8 < b.toNat → pc' = c) ∧
      s.sameRegisters t ∧ (s.mem.wf → a = b → t.mem = s.mem)

/-- R62 (derived there from R61 and R33; log 15), R112: near the top of memory `BBJ` takes `OutOfBounds`. With `pc` in
`0xFFFFFA..0xFFFFFC` its copy has happened and `pc + 6` is reported; with `pc` in `0xFFFFFD..0xFFFFFF` the store is as it
was and `pc + 3` is reported. -/
def Obligations.ByteByteJumpFaultsNearTheTop : Prop :=
  ∀ (s : State) (a b c pc : Addr) (n : Nat), s.phase = .burst pc n →
    (0xFFFFFA ≤ pc.toNat → pc.toNat ≤ 0xFFFFFC → ∃ t, exec (.bbj a b c) s = .next t ∧
      s.faultedAt t (pc.toNat + 6) ∧ t.mem.byteAt b.toNat = s.mem.byteAt a.toNat ∧
      sameBytesExcept (· = b.toNat) s.mem t.mem) ∧
    (0xFFFFFD ≤ pc.toNat → ∃ t, exec (.bbj a b c) s = .next t ∧ s.faultedAt t (pc.toNat + 3) ∧ t.mem = s.mem)

/-- R11, R19 (log 13): outside a burst there is no `pc`, and `BBJ` stops by name. -/
def Obligations.NoInstructionOutsideABurst : Prop :=
  ∀ (s : State) (a b c : Addr), (s.phase = .idle ∨ s.phase = .decode) → exec (.bbj a b c) s = .fault .noBurst

/-- A step in a burst is `exec` of the instruction decoded at `pc`, followed by the iteration count: a frame still in its
burst has its counter raised by one, or, after the 65536th instruction, `pc` dropped and the decoders next (R64); an
aborted frame is left as `exec` left it. A stop of `exec` is a stop of the step. -/
def Obligations.StepRunsTheDecodedInstruction : Prop :=
  ∀ (s : State) (pc : Addr) (n : Nat) (i : Instr) (rest : List Byte), s.phase = .burst pc n →
    decode (fetch s.mem pc) = .ok (i, rest) →
    (∀ t pc' k, exec i s = .next t → t.phase = .burst pc' k →
      step s = .next (t.setPhase (if k + 1 < 65536 then .burst pc' (k + 1) else .decode))) ∧
    (∀ t, exec i s = .next t → (t.phase = .idle ∨ t.phase = .decode) → step s = .next t) ∧
    (∀ f, exec i s = .fault f → step s = .fault f) ∧
    (∀ r, exec i s = .refused r → step s = .refused r)

/-- R61: the step at `pc` is the pseudocode `CopyByte(pc, pc + 3); pc <- Read24(pc + 6)` read through memory, `C` fetched
after the copy. Where `CopyByte` raises nothing is written; where the fetch of `C` raises the copy stays; a raise ends the
burst. The clauses on a raise rest on R62 (derived there from R61 and R33; log 15), on R112, and on the spec's own choices
of the latch and of no rollback (D7, D13; logs 5 and 21). -/
def Obligations.StepIsCopyByteThenRead24 : Prop :=
  ∀ (s : State) (pc : Addr) (n : Nat), s.phase = .burst pc n → ∃ t, step s = .next t ∧
    (∀ e, copyByte s.mem pc.toNat (pc.toNat + 3) = .error e → t.mem = s.mem ∧ t.phase = .idle) ∧
    (∀ m, copyByte s.mem pc.toNat (pc.toNat + 3) = .ok m → t.mem = m ∧
      (∀ e, read24 m (pc.toNat + 6) = .error e → t.phase = .idle) ∧
      (∀ pc', read24 m (pc.toNat + 6) = .ok pc' →
        t.phase = (if n + 1 < 65536 then .burst pc' (n + 1) else .decode) ∧ s.sameRegisters t))

/-- R45, R136: self-modifying code. A store is seen by every later fetch; a store into the executing instruction's `C`
field changes its own jump, and one into its `A` or `B` field does not touch this execution, whose addresses were read
before it. -/
def Obligations.StoresAreSeenByLaterFetches : Prop :=
  ∀ (s : State) (a b c pc : Addr) (n : Nat), s.phase = .burst pc n → n + 1 < 65536 → pc.toNat ≤ 0xFFFFF9 →
    decode (fetch s.mem pc) = .ok (.bbj a b c, []) →
    ∃ t pc', step s = .next t ∧ t.phase = .burst pc' (n + 1) ∧ t.mem.byteAt b.toNat = s.mem.byteAt a.toNat ∧
      (∃ c', read24 t.mem (pc.toNat + 6) = .ok c' ∧ pc' = c') ∧
      (∀ (q : Addr) (k : Nat), k < 9 → (fetch t.mem q)[k]? =
        if q.toNat + k = b.toNat then some (s.mem.byteAt a.toNat) else (fetch s.mem q)[k]?)

/-! ### The burst (spec/40_bytebytejump.md section 2) -/

/-- R65: a burst always terminates. Either its 65536 instructions all run, one a step, and the decoders come next, or
an earlier one raises `OutOfBounds`, which ends the frame and is what its tick answers. -/
def Obligations.BurstAlwaysTerminates : Prop :=
  ∀ (s : State) (pc : Addr), s.phase = .burst pc 0 →
    ((∀ k < 65536, ∃ u pc', Host.Core.run core k s = .next u ∧ u.phase = .burst pc' k) ∧
      ∃ t, Host.Core.run core 65536 s = .next t ∧ t.phase = .decode) ∨
    (∃ j < 65536, (∀ k ≤ j, ∃ u pc', Host.Core.run core k s = .next u ∧ u.phase = .burst pc' k) ∧
      ∃ t a, Host.Core.run core (j + 1) s = .next t ∧ t.phase = .idle ∧ t.reply = some (.fault (.oob a)))

/-- R66: the document's no-op program completes a burst with the store as it was and `pc` at 9. -/
def Obligations.NoOpProgramLeavesTheStore : Prop :=
  ∀ m : Memory, m.wf → m.byteAt 2 = 0x00 → m.byteAt 3 = 0x00 → m.byteAt 4 = 0x09 →
    fetch m 0x000009 = [0x00, 0x00, 0x09, 0x00, 0x00, 0x09, 0x00, 0x00, 0x09] → burst m = (m, .ok 0x000009)

/-- R56, R61 corner case g: a `HALT` idles to the end of its burst from wherever the count stands, and changes nothing. -/
def Obligations.HaltIdlesToTheEndOfItsBurst : Prop :=
  ∀ (s : State) (x pc : Addr) (n : Nat), s.mem.wf → s.phase = .burst pc n → n < 65536 → pc.toNat ≤ 0xFFFFF9 →
    decode (fetch s.mem pc) = .ok (Instr.halt x pc, []) →
    Host.Core.run core (65536 - n) s = .next (s.setPhase .decode)

/-! ### The frame and the tick (spec/41_host_operations.md) -/

/-- R91, R63: a tick that admits a frame writes `KEYS` big-endian to bytes 0 and 1, changes no other byte and not
`KEYS`, and starts the burst at the address in bytes 2 to 4. -/
def Obligations.FrameOpensWithKeyboardWriteAndPcstart : Prop :=
  ∀ (s : State) (time : Time) (rest : List HostOp), s.awaits (.tick time) rest → s.run = true →
    50 / 3 ≤ time - s.lft →
    ∃ t pc, step s = .next t ∧ t.phase = .burst pc 0 ∧
      pc.toNat = (s.mem.byteAt 2).toNat * 65536 + (s.mem.byteAt 3).toNat * 256 + (s.mem.byteAt 4).toNat ∧
      (t.mem.byteAt 0).toNat = s.keys.toNat / 256 ∧ (t.mem.byteAt 1).toNat = s.keys.toNat % 256 ∧
      sameBytesExcept (fun i => i = 0 ∨ i = 1) s.mem t.mem ∧ t.keys = s.keys ∧ t.run = s.run ∧ t.fault = s.fault ∧
      t.pending = rest

/-- R78 (no-op while stopped: the spec's own choice D8, log 25): a tick on a stopped machine, or with
`delta < 50/3`, changes nothing at all; it only answers that no frame ran. -/
def Obligations.EarlyOrStoppedTickIsANoOp : Prop :=
  ∀ (s : State) (time : Time) (rest : List HostOp), s.awaits (.tick time) rest →
    (s.run = false ∨ time - s.lft < 50 / 3) →
    step s = .next { s with pending := rest, reply := some .idle }

/-- R78, R79 b (exact rational time: the spec's own choice D6, log 16): a tick that runs a frame keeps the phase. The
new `LFT` lies less than one period behind `time`, and is the old one plus a positive whole number of periods. -/
def Obligations.TickKeepsThePhase : Prop :=
  ∀ (s : State) (time : Time) (rest : List HostOp), s.awaits (.tick time) rest → s.run = true →
    50 / 3 ≤ time - s.lft →
    ∃ t, step s = .next t ∧ 0 ≤ time - t.lft ∧ time - t.lft < 50 / 3 ∧
      ∃ j : Nat, 1 ≤ j ∧ t.lft = s.lft + j * (50 / 3)

/-- R80, R82: with an audio pointer of at most `0xFFFF00` the frame closes: both outputs are emitted, decoded from the
store as the burst left it, and nothing else changes. -/
def Obligations.FrameClosesWithBothOutputs : Prop :=
  ∀ s : State, s.phase = .decode → (window24 s.mem 6).toNat ≤ 0xFFFF00 →
    ∃ audio, audioDecode s.mem = .ok audio ∧
      step s = .next { s with phase := .idle, reply := some (.frame (videoDecode s.mem) audio) }

/-- R102, R81 (the spec's own choices D10 and D16, logs 18 and 23): with an audio pointer above `0xFFFF00` the frame
aborts for the address `0x1000000`, and neither output is emitted. -/
def Obligations.AudioOverrunAbortsTheFrame : Prop :=
  ∀ s : State, s.phase = .decode → 0xFFFF00 < (window24 s.mem 6).toNat →
    ∃ t, step s = .next t ∧ s.faultedAt t 0x1000000 ∧ t.mem = s.mem

/-- R47, R71, R80 (D20, log 6): what the steps make up is the atomic transition. From any machine between frames with an
operation waiting, after at most 65538 steps, during all of which but the first and the last the frame is in progress,
the machine is where the operation's one transition puts it: for a tick, `Frame()` with its whole burst and both
decodes. -/
def Obligations.StepsMakeUpTheAtomicOperation : Prop :=
  ∀ (s : State) (op : HostOp) (rest : List HostOp), s.awaits op rest →
    ∃ k, 1 ≤ k ∧ k ≤ 65538 ∧ Host.Core.run core k s = .next (op.perform { s with pending := rest }) ∧
      (op.perform { s with pending := rest }).phase = .idle ∧
      ∀ j, 1 ≤ j → j < k → ∃ u, Host.Core.run core j s = .next u ∧ u.phase.inFrame = true ∧ u.pending = rest

/-- R77, R71: `Stop()` clears `RUN` and touches nothing else; and no operation begins inside a frame, so one issued there
waits: a step of a frame in progress leaves the host's queue, `KEYS` and `LFT` alone, and keeps `RUN` unless it faults
(the latch: the spec's own choice D7, log 5). The queue in which it waits is the model's own (log 7, DESIGN CHOICE). That
the frame reaches its end is said by `Obligations.BurstAlwaysTerminates` and `Obligations.StepsMakeUpTheAtomicOperation`. -/
def Obligations.StopTakesEffectOnlyBetweenFrames : Prop :=
  (∀ (s : State) (rest : List HostOp), s.awaits .stop rest →
    step s = .next { s with run := false, pending := rest, reply := some .done }) ∧
  (∀ s t : State, s.phase.inFrame = true → step s = .next t →
    t.pending = s.pending ∧ t.keys = s.keys ∧ t.lft = s.lft ∧ (t.run = s.run ∨ (t.run = false ∧ t.fault ≠ none)))

/-- R76 (ignored while a fault is latched: the spec's own choice D7; `LFT` untouched: D21; logs 5 and 25): `Start()`. -/
def Obligations.StartIsIgnoredWhileFaulted : Prop :=
  ∀ (s : State) (rest : List HostOp), s.awaits .start rest →
    (s.fault = none → step s = .next { s with run := true, pending := rest, reply := some .done }) ∧
    (s.fault ≠ none → step s = .next { s with pending := rest, reply := some .done })

/-! ### The peripherals (spec/42_io_decoders.md) -/

/-- R95, R96: pixel `(x, y)` is the palette entry of the byte at the absolute address `(M[5] << 16) | (y << 8) | x`, which
is never out of range, in row-major order. -/
def Obligations.PixelsAreRowMajorFromThePage : Prop :=
  ∀ (m : Memory) (x y : Nat) (_ : x < 256) (_ : y < 256),
    (m.byteAt 5).toNat * 65536 + y * 256 + x ≤ 0xFFFFFF ∧
    (videoDecode m)[y * 256 + x]? = some (palette (m.byteAt ((m.byteAt 5).toNat * 65536 + y * 256 + x)))

/-- R97: entries 0 to 215 are the 6x6x6 cube, red slowest, blue fastest, full alpha; 216 to 255 are opaque black. -/
def Obligations.PaletteIsTheWebSafeCube : Prop :=
  (∀ r g b : Fin 6, palette (BitVec.ofNat 8 (36 * r.val + 6 * g.val + b.val)) =
    ⟨BitVec.ofNat 8 (0x33 * r.val), BitVec.ofNat 8 (0x33 * g.val), BitVec.ofNat 8 (0x33 * b.val), 0xFF⟩) ∧
  (∀ i : Byte, 216 ≤ i.toNat → palette i = ⟨0x00, 0x00, 0x00, 0xFF⟩)

/-- R99: a framebuffer filled with index 220 is entirely opaque black. -/
def Obligations.FramebufferOf220IsBlack : Prop :=
  ∀ m : Memory, (∀ i < 65536, m.byteAt ((m.byteAt 5).toNat * 65536 + i) = 0xDC) →
    ∀ i < 65536, (videoDecode m)[i]? = some ⟨0x00, 0x00, 0x00, 0xFF⟩

/-- R98 (the spec's own choice D11, log 19): the packed form of a pixel. -/
def Obligations.PackedPixelIsRgbaFromTheTop : Prop :=
  ∀ p : Rgba, p.packed.toNat = p.r.toNat * 16777216 + p.g.toNat * 65536 + p.b.toNat * 256 + p.a.toNat

/-- R100, R101 (an exact rational: the spec's own choice D23, log 27): with the pointer in bytes 6 to 8 at most `0xFFFF00`,
sample `i` is the two's complement value of the byte at the pointer plus `i`, divided by exactly 128, and lies in
`[-1, 127/128]`. Pointers above `0xFFFF00` are those of `Obligations.AudioOverrunAbortsTheFrame`. -/
def Obligations.SamplesAreSignedBytesOver128 : Prop :=
  ∀ (m : Memory) (p : Nat), p = (m.byteAt 6).toNat * 65536 + (m.byteAt 7).toNat * 256 + (m.byteAt 8).toNat →
    p ≤ 0xFFFF00 → ∃ audio, audioDecode m = .ok audio ∧
      ∀ (i byte : Nat) (h : i < 256), byte = (m.byteAt (p + i)).toNat →
        (byte < 128 → audio[i] = (byte : Rat) / 128) ∧ (128 ≤ byte → audio[i] = ((byte : Rat) - 256) / 128) ∧
        -1 ≤ audio[i] ∧ audio[i] ≤ 127 / 128

/-- R74, R75 (bit `k` for key `k`, other indices ignored: the spec's own choice D9, log 17): a press sets the key's bit, a
release clears it, every other bit is kept, an index of 16 or more changes nothing, and nothing but `KEYS` changes; the
store follows at the next frame. -/
def Obligations.KeyEventsSetAndClearOneBit : Prop :=
  ∀ (s : State) (k : Nat) (rest : List HostOp),
    (s.awaits (.keyPress k) rest → ∃ keys, step s = .next { s with keys := keys, pending := rest, reply := some .done } ∧
      ∀ j < 16, keys.getLsbD j = (s.keys.getLsbD j || decide (j = k))) ∧
    (s.awaits (.keyRelease k) rest → ∃ keys, step s = .next { s with keys := keys, pending := rest, reply := some .done } ∧
      ∀ j < 16, keys.getLsbD j = (s.keys.getLsbD j && decide (j ≠ k)))

/-! ### Image load, reset, introspection (spec/41_host_operations.md) -/

/-- R72 (clearing `FAULT`: the spec's own choice D7; leaving the rest: D14; logs 5 and 22): an image of at most
`0x1000008` bytes replaces the whole store, byte `i` at index `i` and zero beyond it, and clears the latch. -/
def Obligations.LoadImageReplacesTheStore : Prop :=
  ∀ (s : State) (bytes : List Byte) (rest : List HostOp), s.awaits (.loadImage bytes) rest →
    bytes.length ≤ 0x1000008 →
    ∃ t, step s = .next t ∧ (∀ i (h : i < bytes.length), t.mem.byteAt i = bytes[i]) ∧
      (∀ i, bytes.length ≤ i → t.mem.byteAt i = 0x00) ∧ t.mem.wf ∧ t.fault = none ∧ t.keys = s.keys ∧ t.lft = s.lft ∧
      t.run = s.run ∧ t.phase = .idle ∧ t.pending = rest ∧ t.reply = some .loaded

/-- R73, R113 (nothing changes: the spec's own choice D14, log 22): a longer image is refused with its length, and
nothing changes. -/
def Obligations.OversizedImageIsRefusedWhole : Prop :=
  ∀ (s : State) (bytes : List Byte) (rest : List HostOp), s.awaits (.loadImage bytes) rest →
    0x1000008 < bytes.length →
    step s = .next { s with pending := rest, reply := some (.refusedImage (.tooLarge bytes.length)) }

/-- R70, R23 (the values are the spec's own choices D2, D3, D4, D5, D7; logs 1 to 5): reset leaves an all-zero store, no
key, `LFT = T0`, stopped, no fault, no frame in progress, from any state. -/
def Obligations.ResetLeavesTheResetValues : Prop :=
  (∀ i, State.reset.mem.byteAt i = 0x00) ∧ State.reset.keys = 0 ∧ State.reset.lft = Config.t0 ∧
  State.reset.run = false ∧ State.reset.fault = none ∧ State.reset.phase = .idle ∧
  ∀ (s : State) (rest : List HostOp), s.awaits .reset rest →
    step s = .next { State.reset with pending := rest, reply := some .done }

/-- R83 (from `M`, and the latch readable: the spec's own choices D18 and D7; log 26): introspection answers the four
memory-mapped words, `RUN` and `FAULT`, and changes nothing. -/
def Obligations.IntrospectionChangesNothing : Prop :=
  ∀ (s : State) (rest : List HostOp),
    (s.awaits .isRunning rest → step s = .next { s with pending := rest, reply := some (.running s.run) }) ∧
    (s.awaits .readFault rest → step s = .next { s with pending := rest, reply := some (.latch s.fault) }) ∧
    (s.awaits .inspect rest → ∃ v : Inspection,
      step s = .next { s with pending := rest, reply := some (.inspected v) } ∧
      v.keyboardWord.toNat = (s.mem.byteAt 0).toNat * 256 + (s.mem.byteAt 1).toNat ∧
      v.pc.toNat = (s.mem.byteAt 2).toNat * 65536 + (s.mem.byteAt 3).toNat * 256 + (s.mem.byteAt 4).toNat ∧
      v.framebuffer.toNat = (s.mem.byteAt 5).toNat * 65536 ∧
      v.audio.toNat = (s.mem.byteAt 6).toNat * 65536 + (s.mem.byteAt 7).toNat * 256 + (s.mem.byteAt 8).toNat)

/-! ### The whole machine -/

/-- R54, R65, R111, R112: the machine never stops of itself: every step of every state has a next state. No pattern of
bits traps, and `OutOfBounds` is an event inside the machine. That taking it is a next state is the model's inference from
R112 (log 14, DEDUCED); that a step between frames with no operation waiting has one is the model's own choice (log 32,
DESIGN CHOICE). -/
def Obligations.EveryStepHasANextState : Prop :=
  ∀ s : State, ∃ t, step s = .next t

/-- R111, R62, R102, R116 (log 18 for the audio site): the only sites of `OutOfBounds`. A step that latches a fault is a
`BBJ` at `pc >= 0xFFFFFA`, reporting `pc + 6` or, from `0xFFFFFD`, `pc + 3`, or the audio decode with a pointer above
`0xFFFF00`, reporting `0x1000000`. -/
def Obligations.OutOfBoundsOnlyAtItsSites : Prop :=
  ∀ (s t : State) (e : ErrorRecord), s.fault = none → step s = .next t → t.fault = some e →
    (∃ pc n, s.phase = .burst pc n ∧ 0xFFFFFA ≤ pc.toNat ∧
      e = .oob (if pc.toNat ≤ 0xFFFFFC then pc.toNat + 6 else pc.toNat + 3)) ∨
    (s.phase = .decode ∧ 0xFFFF00 < (window24 s.mem 6).toNat ∧ e = .oob 0x1000000)

/-- R112, R81 (the latch: the spec's own choice D7; no rollback: D13; logs 5 and 21): whatever step latches a fault, the
machine is then stopped and between frames, the fault is reported as the tick's result and not as a frame, and `KEYS`,
`LFT` and every byte but the one the instruction stored to are as they were. -/
def Obligations.FaultEntryStopsTheMachine : Prop :=
  ∀ (s t : State) (e : ErrorRecord), s.fault = none → step s = .next t → t.fault = some e →
    s.faultedAt t e.value ∧ e.kind = .outOfBounds ∧
    (s.phase = .decode → t.mem = s.mem) ∧
    (∀ pc n, s.phase = .burst pc n → ∀ b, read24 s.mem (pc.toNat + 3) = .ok b →
      sameBytesExcept (· = b.toNat) s.mem t.mem) ∧
    (∀ pc n, s.phase = .burst pc n → 0xFFFFFD ≤ pc.toNat → t.mem = s.mem)

/-- R114 (the spec's own choice D7, log 5): a faulted machine stays as it is, whatever the host does, until an image is
loaded or the block is reset. -/
def Obligations.FaultedMachineStaysStopped : Prop :=
  ∀ (s t : State) (e : ErrorRecord), s.Inv → s.fault = some e → s.pending.head? ≠ some .reset →
    (∀ bytes, s.pending.head? = some (.loadImage bytes) → 0x1000008 < bytes.length) → step s = .next t →
    t.fault = some e ∧ t.run = false ∧ t.phase = .idle ∧ t.mem = s.mem ∧ t.lft = s.lft

/-- The invariant holds after reset. -/
def Obligations.ResetMeetsTheInvariant : Prop := State.reset.Inv

/-- Every step keeps the invariant: the store stays canonical and inside its size (R13), a latched fault is an
`OutOfBounds` just past the top on a stopped machine (R18, R111, R112, R114), a frame is in progress only while `RUN = 1`
(R78), the iteration counter stays below 65536 (R19). -/
def Obligations.EveryStepKeepsTheInvariant : Prop :=
  ∀ s t : State, s.Inv → step s = .next t → t.Inv

/-- R79 b, R16 (`T0` and exact rational time: D5 and D6, logs 4 and 16): `LFT` never leaves the grid `T0 + j * 50/3`. -/
def Obligations.LastFrameTimeStaysOnTheGrid : Prop :=
  State.reset.onGrid ∧ ∀ s t : State, s.onGrid → step s = .next t → t.onGrid

/-- R22, R13: only a reset or an image load can change the headroom. -/
def Obligations.HeadroomChangesOnlyByResetOrImage : Prop :=
  ∀ s t : State, step s = .next t →
    (s.phase = .idle → s.pending.head? ≠ some .reset ∧ ∀ bytes, s.pending.head? ≠ some (.loadImage bytes)) →
    ∀ i, 0x1000000 ≤ i → t.mem.byteAt i = s.mem.byteAt i

/-- R79 e, R118, R22: nothing a program can observe depends on the scheduler, the key word outside a frame's start, the
latch, the queue or the last reply: two machines in a burst with the same store and the same `pc` and count go on with
the same store, `pc` and count. -/
def Obligations.BurstDependsOnlyOnTheStore : Prop :=
  ∀ s s' t t' : State, s.phase.inFrame = true → s'.phase = s.phase → s'.mem = s.mem → step s = .next t →
    step s' = .next t' → t'.mem = t.mem ∧ t'.phase = t.phase

/-- R79 e, R19, R80: the store after a frame, and what the frame emits or reports, are a function of the store and `KEYS`
at its start: no time, latch or queue enters. -/
def Obligations.FrameIsAFunctionOfStoreAndKeys : Prop :=
  ∀ s s' : State, s'.mem = s.mem → s'.keys = s.keys →
    s'.frame.mem = s.frame.mem ∧ s'.frame.reply = s.frame.reply ∧ s'.frame.phase = s.frame.phase

/-- R138: a run is safe that keeps below the top of memory, every instruction at `pc <= 0xFFFFF9` and `AUDPTR` at most
`0xFFFF00` at the end of every burst, whatever the host does in between. -/
def Obligations.KeepingBelowTheTopIsSafe : Prop :=
  ∀ (s : State) (k : Nat), s.faultFree →
    (∀ j < k, ∀ u, Host.Core.run core j s = .next u →
      (∀ pc n, u.phase = .burst pc n → wellPlaced pc = true) ∧
      (u.phase = .decode → (window24 u.mem 6).toNat ≤ 0xFFFF00)) →
    SafeRun s k

/-- R15 to R18, R22 (the latch: the spec's own choice D7, log 5): what can change each block register. `KEYS` changes
only by a key event or a reset, `LFT` only by a tick or a reset; `RUN` is set only by a start with no fault latched and
cleared only by a stop, a reset or a fault; a latched fault is lost only by a reset or an image that fits. -/
def Obligations.RegistersChangeOnlyByTheirOperations : Prop :=
  ∀ s t : State, step s = .next t →
    (t.keys ≠ s.keys → s.phase = .idle ∧ (s.pending.head? = some .reset ∨
      ∃ k, s.pending.head? = some (.keyPress k) ∨ s.pending.head? = some (.keyRelease k))) ∧
    (t.lft ≠ s.lft → s.phase = .idle ∧ (s.pending.head? = some .reset ∨
      ∃ time, s.pending.head? = some (.tick time))) ∧
    (s.run = false → t.run = true → s.phase = .idle ∧ s.pending.head? = some .start ∧ s.fault = none) ∧
    (s.run = true → t.run = false → (s.phase = .idle ∧ (s.pending.head? = some .stop ∨ s.pending.head? = some .reset)) ∨
      (s.phase.inFrame = true ∧ t.fault ≠ none)) ∧
    (s.fault ≠ none → t.fault = none → s.phase = .idle ∧ (s.pending.head? = some .reset ∨
      ∃ bytes, s.pending.head? = some (.loadImage bytes) ∧ bytes.length ≤ 0x1000008))

/-- R82, R78, R81, R112: a tick answers exactly one of three things. On a stopped machine, or less than a frame's time
after `LFT`, that no frame ran, with nothing changed. On a running machine with a frame due, the frame's outputs, decoded
from the store it left, or the fault it latched, with the machine stopped. The spec's own choices: a stopped machine's tick
is a no-op (D8, log 25), the time is exact (D6, log 16), the latch (D7, log 5), no output from a faulted frame (D16,
log 23), and `LFT` staying advanced after an abort (D13, log 21). -/
def Obligations.TickAnswersIdleFrameOrFault : Prop :=
  ∀ (s : State) (time : Time), s.fault = none →
    ((s.run = false ∨ time - s.lft < 50 / 3) ∧ s.tick time = { s with reply := some .idle }) ∨
    ((s.run = true ∧ 50 / 3 ≤ time - s.lft) ∧
      ((∃ audio, (s.tick time).reply = some (.frame (videoDecode (s.tick time).mem) audio) ∧
          audioDecode (s.tick time).mem = .ok audio ∧ (s.tick time).fault = none ∧ (s.tick time).run = true ∧
          (s.tick time).keys = s.keys ∧ s.lft < (s.tick time).lft) ∨
        (∃ a, (s.tick time).reply = some (.fault (.oob a)) ∧ (s.tick time).fault = some (.oob a) ∧
          (s.tick time).run = false ∧ 0xFFFFFF < a ∧ (s.tick time).keys = s.keys ∧ s.lft < (s.tick time).lft)))

/-- R132, R133 (the order is assembled there from the document's parts; `T0 = 0`: D5, log 4): after reset, an image load,
a start and a tick due by then, a burst runs at the address the image holds in bytes 2 to 4, on the image's own bytes but
for the keyboard word (R91). That word is 0 because `KEYS` is 0 after reset (the spec's own choice D3, log 2) and a load
leaves `KEYS` (D14, log 22); no fault is latched after reset (D7, log 5). -/
def Obligations.BootRunsTheImageAtItsPcstart : Prop :=
  ∀ (image : List Byte) (time : Time) (rest : List HostOp), image.length ≤ 0x1000008 → 50 / 3 ≤ time - Config.t0 →
    ∃ t pc, Host.Core.run core 3
        { State.reset with pending := .loadImage image :: .start :: .tick time :: rest } = .next t ∧
      t.phase = .burst pc 0 ∧ t.pending = rest ∧ t.run = true ∧ t.fault = none ∧
      pc.toNat = (image.getD 2 0).toNat * 65536 + (image.getD 3 0).toNat * 256 + (image.getD 4 0).toNat ∧
      (∀ i, 2 ≤ i → t.mem.byteAt i = image.getD i 0) ∧ t.mem.byteAt 0 = 0 ∧ t.mem.byteAt 1 = 0
end

