-- ==== Sys2Proof/Laws/Memory.lean ====
section
/-! SUPPORT. The laws of the byte store: read after write, canonical form, images. -/

namespace Sys2Proof.Machine

@[simp] theorem Memory.byteAt_nil (i : Nat) : Memory.byteAt [] i = Memory.unlisted := rfl

@[simp] theorem Memory.byteAt_cons (k : Nat) (v : Byte) (m : Memory) (i : Nat) :
    Memory.byteAt ((k, v) :: m) i = if k = i then v else Memory.byteAt m i := rfl

theorem Memory.byteAt_unlist (m : Memory) (i j : Nat) :
    (m.unlist i).byteAt j = if j = i then Memory.unlisted else m.byteAt j := by
  induction m with
  | nil => simp [Memory.unlist]
  | cons c m ih =>
    obtain ⟨k, v⟩ := c
    by_cases hk : k = i
    · subst hk
      have : Memory.unlist ((k, v) :: m) k = Memory.unlist m k := by simp [Memory.unlist]
      rw [this, ih]
      by_cases hj : j = k
      · simp [hj]
      · simp [hj, Ne.symm hj]
    · have : Memory.unlist ((k, v) :: m) i = (k, v) :: Memory.unlist m i := by simp [Memory.unlist, hk]
      rw [this]
      by_cases hj : j = i
      · subst hj; simp [hk, ih]
      · simp [ih, hj]

/-- Putting in an entry for an index that has none: it reads back, every other index is unchanged. -/
theorem Memory.byteAt_enlist (m : Memory) (i j : Nat) (v : Byte) (h : ∀ c ∈ m, c.1 ≠ i) :
    (Memory.enlist i v m).byteAt j = if j = i then v else m.byteAt j := by
  induction m with
  | nil => simp [Memory.enlist, eq_comm]
  | cons c m ih =>
    obtain ⟨k, w⟩ := c
    have hk : k ≠ i := h (k, w) (by simp)
    have ih := ih (fun c hc => h c (by simp [hc]))
    by_cases hlt : i < k
    · simp [Memory.enlist, hlt, eq_comm]
    · by_cases hj : j = i
      · subst hj; simp [Memory.enlist, hlt, hk, ih]
      · simp [Memory.enlist, hlt, ih, hj]

theorem Memory.mem_unlist {m : Memory} {i : Nat} {c : Host.Cell} : c ∈ m.unlist i ↔ c ∈ m ∧ c.1 ≠ i := by
  simp [Memory.unlist]

/-- Read after write (R32, R39): the byte written, and every other byte as before. -/
@[simp] theorem Memory.byteAt_storeAt (m : Memory) (i j : Nat) (v : Byte) :
    (m.storeAt i v).byteAt j = if j = i then v else m.byteAt j := by
  unfold Memory.storeAt
  by_cases hv : v = Memory.unlisted
  · simp [hv, Memory.byteAt_unlist]
  · rw [if_neg hv, Memory.byteAt_enlist _ _ _ _ (fun c hc => (Memory.mem_unlist.mp hc).2), Memory.byteAt_unlist]
    split <;> rfl

theorem Memory.mem_enlist {m : Memory} {i : Nat} {v : Byte} {c : Host.Cell} :
    c ∈ Memory.enlist i v m ↔ c = (i, v) ∨ c ∈ m := by
  induction m with
  | nil => simp [Memory.enlist]
  | cons d m ih =>
    obtain ⟨k, w⟩ := d
    by_cases h : i < k
    · simp [Memory.enlist, h]
    · simp only [Memory.enlist, if_neg h, List.mem_cons, ih]
      tauto

theorem Memory.unlist_rising {m : Memory} (i : Nat) (h : m.Pairwise (fun c d => c.1 < d.1)) :
    (m.unlist i).Pairwise (fun c d => c.1 < d.1) := h.filter _

theorem Memory.enlist_rising {m : Memory} (i : Nat) (v : Byte) (h : m.Pairwise (fun c d => c.1 < d.1))
    (hi : ∀ c ∈ m, c.1 ≠ i) : (Memory.enlist i v m).Pairwise (fun c d => c.1 < d.1) := by
  induction m with
  | nil => simp [Memory.enlist]
  | cons d m ih =>
    obtain ⟨k, w⟩ := d
    obtain ⟨hd, hm⟩ := List.pairwise_cons.mp h
    have hk : k ≠ i := hi (k, w) (by simp)
    by_cases hlt : i < k
    · simp only [Memory.enlist, if_pos hlt, List.pairwise_cons]
      refine ⟨?_, hd, hm⟩
      intro c hc
      rcases List.mem_cons.mp hc with rfl | hc
      · exact hlt
      · exact lt_trans hlt (hd c hc)
    · simp only [Memory.enlist, if_neg hlt, List.pairwise_cons]
      refine ⟨?_, ih hm (fun c hc => hi c (by simp [hc]))⟩
      intro c hc
      rcases Memory.mem_enlist.mp hc with rfl | hc
      · show k < i; omega
      · exact hd c hc

theorem Memory.wf_nil : Memory.wf [] := by simp [Memory.wf]

/-- Every write inside the store keeps the canonical form. -/
theorem Memory.wf_storeAt {m : Memory} (h : m.wf) {i : Nat} (hi : i < Config.memSize) (v : Byte) : (m.storeAt i v).wf := by
  unfold Memory.storeAt
  have herase : (m.unlist i).wf :=
    ⟨Memory.unlist_rising i h.1, fun c hc => h.2 c (Memory.mem_unlist.mp hc).1⟩
  by_cases hv : v = Memory.unlisted
  · simpa [hv] using herase
  · rw [if_neg hv]
    refine ⟨Memory.enlist_rising i v herase.1 (fun c hc => (Memory.mem_unlist.mp hc).2), ?_⟩
    intro c hc
    rcases Memory.mem_enlist.mp hc with rfl | hc
    · exact ⟨hv, hi⟩
    · exact herase.2 c hc

theorem Memory.byteAt_of_lt {m : Memory} {i : Nat} (h : ∀ c ∈ m, i < c.1) : m.byteAt i = Memory.unlisted := by
  induction m with
  | nil => rfl
  | cons c m ih =>
    obtain ⟨k, v⟩ := c
    have : k ≠ i := by have := h (k, v) (by simp); simp at this; omega
    simp [this, ih (fun c hc => h c (by simp [hc]))]

/-- Equal memories are equal data: two canonical stores that read the same everywhere are the same list. -/
theorem Memory.ext_byteAt {m m' : Memory} (h : m.wf) (h' : m'.wf) (hget : ∀ i, m.byteAt i = m'.byteAt i) : m = m' := by
  induction m generalizing m' with
  | nil =>
    cases m' with
    | nil => rfl
    | cons d m' =>
      obtain ⟨k, w⟩ := d
      have := hget k
      simp at this
      exact absurd this.symm (h'.2 (k, w) (by simp)).1
  | cons c m ih =>
    obtain ⟨k, v⟩ := c
    obtain ⟨hc, hm⟩ := List.pairwise_cons.mp h.1
    have hv : v ≠ Memory.unlisted := (h.2 (k, v) (by simp)).1
    cases m' with
    | nil =>
      have := hget k
      simp at this
      exact absurd this hv
    | cons d m' =>
      obtain ⟨k', v'⟩ := d
      obtain ⟨hd, hm'⟩ := List.pairwise_cons.mp h'.1
      have hv' : v' ≠ Memory.unlisted := (h'.2 (k', v') (by simp)).1
      have hmk : Memory.byteAt m k = Memory.unlisted := Memory.byteAt_of_lt (fun c h => hc c h)
      have hmk' : Memory.byteAt m' k' = Memory.unlisted := Memory.byteAt_of_lt (fun c h => hd c h)
      have hkk : k = k' := by
        rcases Nat.lt_trichotomy k k' with hlt | heq | hgt
        · have := hget k
          have hne : k' ≠ k := by omega
          have hz : Memory.byteAt m' k = Memory.unlisted :=
            Memory.byteAt_of_lt (fun c hc' => lt_trans hlt (hd c hc'))
          simp [hne, hz] at this
          exact absurd this hv
        · exact heq
        · have := hget k'
          have hne : k ≠ k' := by omega
          have hz : Memory.byteAt m k' = Memory.unlisted :=
            Memory.byteAt_of_lt (fun c hc' => lt_trans hgt (hc c hc'))
          simp [hne, hz] at this
          exact absurd this.symm hv'
      subst hkk
      have hvv : v = v' := by simpa using hget k
      subst hvv
      have hrest : m = m' := by
        refine ih ⟨hm, fun c hc => h.2 c (by simp [hc])⟩ ⟨hm', fun c hc => h'.2 c (by simp [hc])⟩ ?_
        intro i
        by_cases hi : k = i
        · subst hi; rw [hmk, hmk']
        · simpa [hi] using hget i
      rw [hrest]

/-- Writing back the byte that stands there changes nothing (R61 corner case a). -/
theorem Memory.storeAt_byteAt_self {m : Memory} (h : m.wf) {i : Nat} (hi : i < Config.memSize) : m.storeAt i (m.byteAt i) = m := by
  refine Memory.ext_byteAt (Memory.wf_storeAt h hi _) h ?_
  intro j
  rw [Memory.byteAt_storeAt]
  split
  · subst_vars; rfl
  · rfl

theorem Memory.ofBytesAt_ge {i : Nat} {bytes : List Byte} {c : Host.Cell} (h : c ∈ Memory.ofBytesAt i bytes) :
    i ≤ c.1 ∧ c.1 < i + bytes.length ∧ c.2 ≠ Memory.unlisted := by
  induction bytes generalizing i with
  | nil => simp [Memory.ofBytesAt] at h
  | cons v rest ih =>
    by_cases hv : v = Memory.unlisted
    · rw [Memory.ofBytesAt, if_pos hv] at h
      obtain ⟨h1, h2, h3⟩ := ih h
      simp only [List.length_cons]
      exact ⟨by omega, by omega, h3⟩
    · rw [Memory.ofBytesAt, if_neg hv] at h
      rcases List.mem_cons.mp h with rfl | h
      · simp [hv]
      · obtain ⟨h1, h2, h3⟩ := ih h
        simp only [List.length_cons]
        exact ⟨by omega, by omega, h3⟩

theorem Memory.ofBytesAt_rising (i : Nat) (bytes : List Byte) :
    (Memory.ofBytesAt i bytes).Pairwise (fun c d => c.1 < d.1) := by
  induction bytes generalizing i with
  | nil => simp [Memory.ofBytesAt]
  | cons v rest ih =>
    by_cases hv : v = Memory.unlisted
    · simpa [Memory.ofBytesAt, hv] using ih (i + 1)
    · rw [Memory.ofBytesAt, if_neg hv, List.pairwise_cons]
      exact ⟨fun c hc => (Memory.ofBytesAt_ge hc).1, ih (i + 1)⟩

/-- The store an image makes is canonical, if the image fits (R72). -/
theorem Memory.wf_ofImage {bytes : List Byte} (h : bytes.length ≤ Config.memSize) : (Memory.ofImage bytes).wf := by
  refine ⟨Memory.ofBytesAt_rising 0 bytes, ?_⟩
  intro c hc
  have := Memory.ofBytesAt_ge hc
  exact ⟨this.2.2, by omega⟩

theorem Memory.byteAt_ofBytesAt (i : Nat) (bytes : List Byte) (j : Nat) :
    (Memory.ofBytesAt i bytes).byteAt j = if i ≤ j then bytes.getD (j - i) Memory.unlisted else Memory.unlisted := by
  induction bytes generalizing i with
  | nil => simp [Memory.ofBytesAt]
  | cons v rest ih =>
    have hshift : ∀ hne : i ≠ j, (if i + 1 ≤ j then rest.getD (j - (i + 1)) Memory.unlisted else Memory.unlisted)
        = if i ≤ j then (v :: rest).getD (j - i) Memory.unlisted else Memory.unlisted := by
      intro hne
      by_cases hle : i + 1 ≤ j
      · have h1 : i ≤ j := by omega
        have h2 : j - i = (j - (i + 1)) + 1 := by omega
        rw [if_pos hle, if_pos h1, h2, List.getD_cons_succ]
      · have h1 : ¬ i ≤ j := by omega
        rw [if_neg hle, if_neg h1]
    by_cases hv : v = Memory.unlisted
    · rw [Memory.ofBytesAt, if_pos hv, ih]
      by_cases hij : i = j
      · subst hij; simp [hv]
      · exact hshift hij
    · rw [Memory.ofBytesAt, if_neg hv, Memory.byteAt_cons, ih]
      by_cases hij : i = j
      · subst hij; simp
      · rw [if_neg hij]; exact hshift hij

/-- Image byte `i` goes to index `i`, every other byte is zero (R72). -/
theorem Memory.byteAt_ofImage (bytes : List Byte) (j : Nat) :
    (Memory.ofImage bytes).byteAt j = bytes.getD j Memory.unlisted := by
  simp [Memory.ofImage, Memory.byteAt_ofBytesAt]

theorem Memory.wf_storeBytes {m : Memory} (h : m.wf) {i : Nat} {bytes : List Byte}
    (hi : i + bytes.length ≤ Config.memSize) : (m.storeBytes i bytes).wf := by
  induction bytes generalizing m i with
  | nil => exact h
  | cons v rest ih =>
    simp only [List.length_cons] at hi
    exact ih (Memory.wf_storeAt h (by omega) v) (by omega)

end Sys2Proof.Machine
end

