-- ==== Sys2Proof/Laws/State.lean ====
section
/-! SUPPORT. One lemma per field per update of the state, each true by `rfl`, so that no proof unfolds a record update. -/

namespace Sys2Proof.Machine.State

@[simp] theorem storeByte_mem (s : State) (a : Addr) (v : Byte) : (s.storeByte a v).mem = s.mem.storeAt a.toNat v := rfl
@[simp] theorem storeByte_keys (s : State) (a : Addr) (v : Byte) : (s.storeByte a v).keys = s.keys := rfl
@[simp] theorem storeByte_lft (s : State) (a : Addr) (v : Byte) : (s.storeByte a v).lft = s.lft := rfl
@[simp] theorem storeByte_run (s : State) (a : Addr) (v : Byte) : (s.storeByte a v).run = s.run := rfl
@[simp] theorem storeByte_fault (s : State) (a : Addr) (v : Byte) : (s.storeByte a v).fault = s.fault := rfl
@[simp] theorem storeByte_phase (s : State) (a : Addr) (v : Byte) : (s.storeByte a v).phase = s.phase := rfl
@[simp] theorem storeByte_pending (s : State) (a : Addr) (v : Byte) : (s.storeByte a v).pending = s.pending := rfl
@[simp] theorem storeByte_reply (s : State) (a : Addr) (v : Byte) : (s.storeByte a v).reply = s.reply := rfl

@[simp] theorem setMem_mem (s : State) (m : Memory) : (s.setMem m).mem = m := rfl
@[simp] theorem setMem_keys (s : State) (m : Memory) : (s.setMem m).keys = s.keys := rfl
@[simp] theorem setMem_lft (s : State) (m : Memory) : (s.setMem m).lft = s.lft := rfl
@[simp] theorem setMem_run (s : State) (m : Memory) : (s.setMem m).run = s.run := rfl
@[simp] theorem setMem_fault (s : State) (m : Memory) : (s.setMem m).fault = s.fault := rfl
@[simp] theorem setMem_phase (s : State) (m : Memory) : (s.setMem m).phase = s.phase := rfl
@[simp] theorem setMem_pending (s : State) (m : Memory) : (s.setMem m).pending = s.pending := rfl
@[simp] theorem setMem_reply (s : State) (m : Memory) : (s.setMem m).reply = s.reply := rfl

@[simp] theorem setPhase_mem (s : State) (p : Phase) : (s.setPhase p).mem = s.mem := rfl
@[simp] theorem setPhase_keys (s : State) (p : Phase) : (s.setPhase p).keys = s.keys := rfl
@[simp] theorem setPhase_lft (s : State) (p : Phase) : (s.setPhase p).lft = s.lft := rfl
@[simp] theorem setPhase_run (s : State) (p : Phase) : (s.setPhase p).run = s.run := rfl
@[simp] theorem setPhase_fault (s : State) (p : Phase) : (s.setPhase p).fault = s.fault := rfl
@[simp] theorem setPhase_phase (s : State) (p : Phase) : (s.setPhase p).phase = p := rfl
@[simp] theorem setPhase_pending (s : State) (p : Phase) : (s.setPhase p).pending = s.pending := rfl
@[simp] theorem setPhase_reply (s : State) (p : Phase) : (s.setPhase p).reply = s.reply := rfl

@[simp] theorem setKeys_mem (s : State) (k : KeyWord) : (s.setKeys k).mem = s.mem := rfl
@[simp] theorem setKeys_keys (s : State) (k : KeyWord) : (s.setKeys k).keys = k := rfl
@[simp] theorem setKeys_lft (s : State) (k : KeyWord) : (s.setKeys k).lft = s.lft := rfl
@[simp] theorem setKeys_run (s : State) (k : KeyWord) : (s.setKeys k).run = s.run := rfl
@[simp] theorem setKeys_fault (s : State) (k : KeyWord) : (s.setKeys k).fault = s.fault := rfl
@[simp] theorem setKeys_phase (s : State) (k : KeyWord) : (s.setKeys k).phase = s.phase := rfl
@[simp] theorem setKeys_pending (s : State) (k : KeyWord) : (s.setKeys k).pending = s.pending := rfl
@[simp] theorem setKeys_reply (s : State) (k : KeyWord) : (s.setKeys k).reply = s.reply := rfl

@[simp] theorem setLft_mem (s : State) (t : Time) : (s.setLft t).mem = s.mem := rfl
@[simp] theorem setLft_keys (s : State) (t : Time) : (s.setLft t).keys = s.keys := rfl
@[simp] theorem setLft_lft (s : State) (t : Time) : (s.setLft t).lft = t := rfl
@[simp] theorem setLft_run (s : State) (t : Time) : (s.setLft t).run = s.run := rfl
@[simp] theorem setLft_fault (s : State) (t : Time) : (s.setLft t).fault = s.fault := rfl
@[simp] theorem setLft_phase (s : State) (t : Time) : (s.setLft t).phase = s.phase := rfl
@[simp] theorem setLft_pending (s : State) (t : Time) : (s.setLft t).pending = s.pending := rfl
@[simp] theorem setLft_reply (s : State) (t : Time) : (s.setLft t).reply = s.reply := rfl

@[simp] theorem setRun_mem (s : State) (r : Bool) : (s.setRun r).mem = s.mem := rfl
@[simp] theorem setRun_keys (s : State) (r : Bool) : (s.setRun r).keys = s.keys := rfl
@[simp] theorem setRun_lft (s : State) (r : Bool) : (s.setRun r).lft = s.lft := rfl
@[simp] theorem setRun_run (s : State) (r : Bool) : (s.setRun r).run = r := rfl
@[simp] theorem setRun_fault (s : State) (r : Bool) : (s.setRun r).fault = s.fault := rfl
@[simp] theorem setRun_phase (s : State) (r : Bool) : (s.setRun r).phase = s.phase := rfl
@[simp] theorem setRun_pending (s : State) (r : Bool) : (s.setRun r).pending = s.pending := rfl
@[simp] theorem setRun_reply (s : State) (r : Bool) : (s.setRun r).reply = s.reply := rfl

@[simp] theorem answer_mem (s : State) (r : Reply) : (s.answer r).mem = s.mem := rfl
@[simp] theorem answer_keys (s : State) (r : Reply) : (s.answer r).keys = s.keys := rfl
@[simp] theorem answer_lft (s : State) (r : Reply) : (s.answer r).lft = s.lft := rfl
@[simp] theorem answer_run (s : State) (r : Reply) : (s.answer r).run = s.run := rfl
@[simp] theorem answer_fault (s : State) (r : Reply) : (s.answer r).fault = s.fault := rfl
@[simp] theorem answer_phase (s : State) (r : Reply) : (s.answer r).phase = s.phase := rfl
@[simp] theorem answer_pending (s : State) (r : Reply) : (s.answer r).pending = s.pending := rfl
@[simp] theorem answer_reply (s : State) (r : Reply) : (s.answer r).reply = some r := rfl

@[simp] theorem takeFault_mem (s : State) (e : ErrorRecord) : (s.takeFault e).mem = s.mem := rfl
@[simp] theorem takeFault_keys (s : State) (e : ErrorRecord) : (s.takeFault e).keys = s.keys := rfl
@[simp] theorem takeFault_lft (s : State) (e : ErrorRecord) : (s.takeFault e).lft = s.lft := rfl
@[simp] theorem takeFault_run (s : State) (e : ErrorRecord) : (s.takeFault e).run = false := rfl
@[simp] theorem takeFault_fault (s : State) (e : ErrorRecord) : (s.takeFault e).fault = some e := rfl
@[simp] theorem takeFault_phase (s : State) (e : ErrorRecord) : (s.takeFault e).phase = .idle := rfl
@[simp] theorem takeFault_pending (s : State) (e : ErrorRecord) : (s.takeFault e).pending = s.pending := rfl
@[simp] theorem takeFault_reply (s : State) (e : ErrorRecord) : (s.takeFault e).reply = some (.fault e) := rfl

@[simp] theorem loadByte_eq (s : State) (a : Addr) : s.loadByte a = s.mem.byteAt a.toNat := rfl

@[simp] theorem reset_mem : State.reset.mem = [] := rfl
@[simp] theorem reset_keys : State.reset.keys = 0 := rfl
@[simp] theorem reset_lft : State.reset.lft = Config.t0 := rfl
@[simp] theorem reset_run : State.reset.run = false := rfl
@[simp] theorem reset_fault : State.reset.fault = none := rfl
@[simp] theorem reset_phase : State.reset.phase = .idle := rfl
@[simp] theorem reset_pending : State.reset.pending = [] := rfl
@[simp] theorem reset_reply : State.reset.reply = none := rfl

@[simp] theorem resetBlock_mem (s : State) : s.resetBlock.mem = [] := rfl
@[simp] theorem resetBlock_keys (s : State) : s.resetBlock.keys = 0 := rfl
@[simp] theorem resetBlock_lft (s : State) : s.resetBlock.lft = Config.t0 := rfl
@[simp] theorem resetBlock_run (s : State) : s.resetBlock.run = false := rfl
@[simp] theorem resetBlock_fault (s : State) : s.resetBlock.fault = none := rfl
@[simp] theorem resetBlock_phase (s : State) : s.resetBlock.phase = .idle := rfl
@[simp] theorem resetBlock_pending (s : State) : s.resetBlock.pending = s.pending := rfl
@[simp] theorem resetBlock_reply (s : State) : s.resetBlock.reply = some .done := rfl

end Sys2Proof.Machine.State
end

