-- ==== Sys2Proof/Laws/Ops.lean ====
section
/-! SUPPORT. What each access primitive can do, said once, and that each keeps the canonical form of the store. -/

namespace Sys2Proof.Machine

/-! ### The bounds check -/

theorem check_ok {a : Nat} (h : a ≤ Config.addrMax) : check a = .ok () := by
  simp [check, Nat.not_lt.mpr h]

theorem check_error {a : Nat} (h : Config.addrMax < a) : check a = .error (.oob a) := by
  simp [check, h]

theorem check_cases (a : Nat) :
    (a ≤ Config.addrMax ∧ check a = .ok ()) ∨ (Config.addrMax < a ∧ check a = .error (.oob a)) := by
  rcases Nat.lt_or_ge Config.addrMax a with h | h
  · exact .inr ⟨h, check_error h⟩
  · exact .inl ⟨h, check_ok h⟩

theorem addr_le (x : Addr) : x.toNat ≤ Config.addrMax := by
  have := x.isLt; simp only [Config.addrMax]; omega

theorem addr_lt_memSize (x : Addr) : x.toNat < Config.memSize := by
  have := x.isLt; simp only [Config.memSize]; omega

/-- `pc` itself is always a legal address argument (R11, R62). -/
@[simp] theorem check_addr (x : Addr) : check x.toNat = .ok () := check_ok (addr_le x)

/-! ### Bytes and 24-bit values -/

theorem addrOfBytes_getLsbD (h m l : Byte) (i : Nat) : (addrOfBytes h m l).getLsbD i =
    if i < 8 then l.getLsbD i else if i < 16 then m.getLsbD (i - 8) else h.getLsbD (i - 16) := by
  show ((h ++ m ++ l : BitVec (8 + 8 + 8))).getLsbD i = _
  rw [BitVec.getLsbD_append, BitVec.getLsbD_append]
  rcases Nat.lt_or_ge i 8 with h1 | h1
  · simp [h1]
  · have e1 : ¬ i < 8 := by omega
    have e2 : i - 8 < 8 ↔ i < 16 := by omega
    have e3 : i - 8 - 8 = i - 16 := by omega
    simp [e1, e2, e3]

theorem window32_getLsbD (m : Memory) (a i : Nat) : (window32 m a).getLsbD (8 + i) =
    (addrOfBytes (m.byteAt a) (m.byteAt (a + 1)) (m.byteAt (a + 2))).getLsbD i := by
  show ((m.byteAt a ++ m.byteAt (a + 1) ++ m.byteAt (a + 2) : BitVec (8 + 8 + 8)) ++ m.byteAt (a + 3)).getLsbD (8 + i) = _
  rw [BitVec.getLsbD_append]
  have e1 : ¬ 8 + i < 8 := by omega
  have e2 : 8 + i - 8 = i := by omega
  rw [if_neg e1, e2]
  rfl

/-- The 4-byte window with its low byte dropped is the three bytes at `a`, big-endian (R35). -/
theorem window24_eq (m : Memory) (a : Nat) :
    window24 m a = addrOfBytes (m.byteAt a) (m.byteAt (a + 1)) (m.byteAt (a + 2)) := by
  apply BitVec.eq_of_getLsbD_eq
  intro i hi
  simp only [window24, BitVec.getLsbD_setWidth, BitVec.getLsbD_ushiftRight, window32_getLsbD, hi, decide_true,
    Bool.true_and]

/-- Splitting a 24-bit value into its three bytes and assembling them again gives it back (R51). -/
theorem addrOfBytes_extract (x : Addr) :
    addrOfBytes (x.extractLsb' 16 8) (x.extractLsb' 8 8) (x.extractLsb' 0 8) = x := by
  apply BitVec.eq_of_getLsbD_eq
  intro i hi
  simp only [addrOfBytes_getLsbD, BitVec.getLsbD_extractLsb']
  by_cases h1 : i < 8
  · simp [h1]
  · by_cases h2 : i < 16
    · have e1 : i - 8 < 8 := by omega
      have e2 : 8 + (i - 8) = i := by omega
      simp [h1, h2, e1, e2]
    · have e1 : i - 16 < 8 := by omega
      have e2 : 16 + (i - 16) = i := by omega
      simp [h1, h2, e1, e2]

/-! ### The primitives -/

theorem memRead1_ok (m : Memory) {a : Nat} (h : a ≤ Config.addrMax) : memRead1 m a = .ok (m.byteAt a) := by
  simp [memRead1, check_ok h]

theorem memRead1_error (m : Memory) {a : Nat} (h : Config.addrMax < a) : memRead1 m a = .error (.oob a) := by
  simp [memRead1, check_error h]

theorem memWrite1_ok (m : Memory) {a : Nat} (h : a ≤ Config.addrMax) (v : Byte) :
    memWrite1 m a v = .ok (m.storeAt a v) := by
  simp [memWrite1, check_ok h]

theorem memWrite1_error (m : Memory) {a : Nat} (h : Config.addrMax < a) (v : Byte) :
    memWrite1 m a v = .error (.oob a) := by
  simp [memWrite1, check_error h]

theorem read24_ok (m : Memory) {a : Nat} (h : a ≤ Config.addrMax) : read24 m a = .ok (window24 m a) := by
  simp [read24, memRead4, check_ok h, window24]

theorem read24_error (m : Memory) {a : Nat} (h : Config.addrMax < a) : read24 m a = .error (.oob a) := by
  simp [read24, memRead4, check_error h]

theorem memWrite2_ok (m : Memory) {a : Nat} (h : a ≤ Config.addrMax) (v : BitVec 16) :
    memWrite2 m a v = .ok ((m.storeAt a (v.extractLsb' 8 8)).storeAt (a + 1) (v.extractLsb' 0 8)) := by
  simp [memWrite2, check_ok h]

theorem memWrite2_error (m : Memory) {a : Nat} (h : Config.addrMax < a) (v : BitVec 16) :
    memWrite2 m a v = .error (.oob a) := by
  simp [memWrite2, check_error h]

/-- The keyboard write cannot raise (R91). -/
theorem writeKeyword_eq (m : Memory) (keys : KeyWord) :
    writeKeyword m keys = .ok ((m.storeAt 0 (keys.extractLsb' 8 8)).storeAt 1 (keys.extractLsb' 0 8)) :=
  memWrite2_ok m (by simp [Config.addrMax, keywordAddr]) keys

/-- A copy with legal raw addresses moves one byte between the resolved addresses; the inner accesses cannot raise
(R37). -/
theorem copyByte_ok (m : Memory) {s d : Nat} (hs : s ≤ Config.addrMax) (hd : d ≤ Config.addrMax) :
    copyByte m s d = .ok (m.storeAt (window24 m d).toNat (m.byteAt (window24 m s).toNat)) := by
  simp only [copyByte, check_ok hs, check_ok hd, read24_ok m hs, read24_ok m hd]
  simp only [bind, Except.bind, memRead1_ok m (addr_le _), memWrite1_ok m (addr_le _)]

theorem copyByte_source_error (m : Memory) {s : Nat} (d : Nat) (hs : Config.addrMax < s) :
    copyByte m s d = .error (.oob s) := by
  simp [copyByte, check_error hs, bind, Except.bind]

theorem copyByte_dest_error (m : Memory) {s d : Nat} (hs : s ≤ Config.addrMax) (hd : Config.addrMax < d) :
    copyByte m s d = .error (.oob d) := by
  simp [copyByte, check_ok hs, check_error hd, bind, Except.bind]

/-! ### Every primitive that writes keeps the canonical form -/

theorem memWrite1_wf {m m' : Memory} {a : Nat} {v : Byte} (h : m.wf) (hw : memWrite1 m a v = .ok m') : m'.wf := by
  rcases check_cases a with ⟨ha, -⟩ | ⟨ha, -⟩
  · rw [memWrite1_ok m ha] at hw
    cases hw
    exact Memory.wf_storeAt h (by simp only [Config.addrMax, Config.memSize] at *; omega) v
  · rw [memWrite1_error m ha] at hw; cases hw

theorem memWrite2_wf {m m' : Memory} {a : Nat} {v : BitVec 16} (h : m.wf) (hw : memWrite2 m a v = .ok m') : m'.wf := by
  rcases check_cases a with ⟨ha, -⟩ | ⟨ha, -⟩
  · rw [memWrite2_ok m ha] at hw
    cases hw
    simp only [Config.addrMax] at ha
    exact Memory.wf_storeAt (Memory.wf_storeAt h (by simp only [Config.memSize]; omega) _)
      (by simp only [Config.memSize]; omega) _
  · rw [memWrite2_error m ha] at hw; cases hw

theorem writeKeyword_wf {m m' : Memory} {keys : KeyWord} (h : m.wf) (hw : writeKeyword m keys = .ok m') : m'.wf :=
  memWrite2_wf h hw

theorem copyByte_wf {m m' : Memory} {s d : Nat} (h : m.wf) (hw : copyByte m s d = .ok m') : m'.wf := by
  rcases check_cases s with ⟨hs, -⟩ | ⟨hs, -⟩
  · rcases check_cases d with ⟨hd, -⟩ | ⟨hd, -⟩
    · rw [copyByte_ok m hs hd] at hw
      cases hw
      exact Memory.wf_storeAt h (addr_lt_memSize _) _
    · rw [copyByte_dest_error m hs hd] at hw; cases hw
  · rw [copyByte_source_error m d hs] at hw; cases hw

theorem storeByte_wf {s : State} (h : s.mem.wf) (a : Addr) (v : Byte) : (s.storeByte a v).mem.wf :=
  Memory.wf_storeAt h (addr_lt_memSize a) v

/-! ### The decoder's input, and the jump target -/

/-- What the decoder reads at `pc`: the three 24-bit windows of the instruction (R50, R51). -/
theorem decode_fetch (m : Memory) (pc : Addr) :
    decode (fetch m pc) = .ok (.bbj (window24 m pc.toNat) (window24 m (pc.toNat + 3)) (window24 m (pc.toNat + 6)), []) := by
  simp [fetch, decode, window24_eq]

theorem addrOfBytes_hi (h m l : Byte) : (addrOfBytes h m l).extractLsb' 16 8 = h := by
  apply BitVec.eq_of_getLsbD_eq
  intro i hi
  have e1 : ¬ 16 + i < 8 := by omega
  have e2 : ¬ 16 + i < 16 := by omega
  simp [addrOfBytes_getLsbD, hi, e1]

theorem addrOfBytes_mid (h m l : Byte) : (addrOfBytes h m l).extractLsb' 8 8 = m := by
  apply BitVec.eq_of_getLsbD_eq
  intro i hi
  have e1 : 8 + i < 16 := by omega
  simp [addrOfBytes_getLsbD, hi, e1]

theorem addrOfBytes_lo (h m l : Byte) : (addrOfBytes h m l).extractLsb' 0 8 = l := by
  apply BitVec.eq_of_getLsbD_eq
  intro i hi
  simp [addrOfBytes_getLsbD, hi]

/-- Where the `C` field's bytes are those in memory, the jump target is `C` as it reads after the store (R61, R45 b). -/
theorem jumpTarget_window24 (m : Memory) (pc b : Addr) (v : Byte) :
    jumpTarget pc b v (window24 m (pc.toNat + 6)) = window24 (m.storeAt b.toNat v) (pc.toNat + 6) := by
  simp only [jumpTarget, window24_eq, addrOfBytes_hi, addrOfBytes_mid, addrOfBytes_lo, afterStore, Memory.byteAt_storeAt]
  simp [eq_comm, Nat.add_assoc]

/-- A store outside the instruction's own `C` field leaves the jump target `C` (R61). -/
theorem jumpTarget_outside {pc b : Addr} (v : Byte) (c : Addr)
    (h : b.toNat < pc.toNat + 6 ∨ pc.toNat + 9 ≤ b.toNat) : jumpTarget pc b v c = c := by
  have h0 : b.toNat ≠ pc.toNat + 6 := by omega
  have h1 : b.toNat ≠ pc.toNat + 6 + 1 := by omega
  have h2 : b.toNat ≠ pc.toNat + 6 + 2 := by omega
  simp [jumpTarget, afterStore, h0, h1, h2, addrOfBytes_extract]

/-! ### The audio region -/

theorem audioOverrun_none {p : Nat} (h : p ≤ 0xFFFF00) : audioOverrun p = none := by
  simp only [audioOverrun, List.find?_eq_none, List.mem_map, List.mem_range, decide_eq_true_eq]
  rintro a ⟨i, hi, rfl⟩
  simp only [Config.audioLen, Config.addrMax] at *
  omega

end Sys2Proof.Machine
end

