-- ==== Sys2Proof/Laws/ByteByteJump.lean ====
section
/-! SUPPORT. Everything `BBJ` can do in a burst, by the three ranges of `pc` (R62). -/

namespace Sys2Proof.Machine

/-- The three ranges of `pc`. -/
theorem pc_range (pc : Addr) : pc.toNat + 6 ≤ Config.addrMax ∨
    (pc.toNat + 3 ≤ Config.addrMax ∧ Config.addrMax < pc.toNat + 6) ∨ Config.addrMax < pc.toNat + 3 := by
  omega

theorem execBbj_jumps {s : State} {pc : Addr} {n : Nat} (h : s.phase = .burst pc n)
    (hp : pc.toNat + 6 ≤ Config.addrMax) (a b c : Addr) :
    execBbj a b c s = .next ((s.storeByte b (s.loadByte a)).setPhase (.burst (jumpTarget pc b (s.loadByte a) c) n)) := by
  simp only [execBbj, h]
  rw [check_ok (by omega), check_ok hp]

theorem execBbj_faults_after_copy {s : State} {pc : Addr} {n : Nat} (h : s.phase = .burst pc n)
    (hp : pc.toNat + 3 ≤ Config.addrMax) (hq : Config.addrMax < pc.toNat + 6) (a b c : Addr) :
    execBbj a b c s = .next ((s.storeByte b (s.loadByte a)).takeFault (.oob (pc.toNat + 6))) := by
  simp only [execBbj, h]
  rw [check_ok hp, check_error hq]

theorem execBbj_faults_before_copy {s : State} {pc : Addr} {n : Nat} (h : s.phase = .burst pc n)
    (hp : Config.addrMax < pc.toNat + 3) (a b c : Addr) :
    execBbj a b c s = .next (s.takeFault (.oob (pc.toNat + 3))) := by
  simp only [execBbj, h]
  rw [check_error hp]

theorem execBbj_outside_burst {s : State} (h : ∀ pc n, s.phase ≠ .burst pc n) (a b c : Addr) :
    execBbj a b c s = .fault .noBurst := by
  unfold execBbj
  split
  · next pc n hp => exact absurd hp (h pc n)
  · rfl
  · rfl

end Sys2Proof.Machine
end

