-- ==== Sys2Proof/Laws/Frame.lean ====
section
/-! SUPPORT. What the scheduler's decision, the two ends of a frame, the iteration count and the host's step can do, each
said once. -/

namespace Sys2Proof.Machine

/-! ### The scheduler's decision (R78) -/

theorem admits_stopped {s : State} (h : s.run = false) (time : Time) : s.admits time = none := by
  simp [State.admits, h]

theorem admits_early {s : State} {time : Time} (h : time - s.lft < Config.frameDuration) : s.admits time = none := by
  simp [State.admits, h]

theorem admits_due {s : State} {time : Time} (hr : s.run = true) (h : ¬ time - s.lft < Config.frameDuration) :
    s.admits time = some (time - timeMod (time - s.lft) Config.frameDuration) := by
  simp [State.admits, hr, h]

/-- The scheduler's decision, whole: no frame on a stopped machine or before the frame duration has passed; otherwise one,
with the new `LFT`. -/
theorem admits_cases (s : State) (time : Time) :
    ((s.run = false ∨ time - s.lft < Config.frameDuration) ∧ s.admits time = none) ∨
    (s.run = true ∧ ¬ time - s.lft < Config.frameDuration ∧
      s.admits time = some (time - timeMod (time - s.lft) Config.frameDuration)) := by
  cases hr : s.run with
  | false => exact .inl ⟨.inl rfl, admits_stopped hr time⟩
  | true =>
    by_cases h : time - s.lft < Config.frameDuration
    · exact .inl ⟨.inr h, admits_early h⟩
    · exact .inr ⟨rfl, h, admits_due hr h⟩

/-- The decision looks at `RUN` and `LFT` only. -/
theorem admits_congr {s t : State} (hr : s.run = t.run) (hl : s.lft = t.lft) (time : Time) :
    s.admits time = t.admits time := by
  simp [State.admits, hr, hl]

/-! ### The opening of a frame (R80, R91, R63) -/

/-- The store a frame's burst starts on: `KEYS` written big-endian to bytes 0 and 1 (R91). -/
theorem beginFrame_eq (s : State) : s.beginFrame =
    let m := (s.mem.storeAt 0 (s.keys.extractLsb' 8 8)).storeAt 1 (s.keys.extractLsb' 0 8)
    { s with mem := m, phase := .burst (window24 m pcStartAddr) 0, reply := none } := by
  simp only [State.beginFrame, writeKeyword_eq]
  rw [read24_ok _ (show pcStartAddr ≤ Config.addrMax by simp [pcStartAddr, Config.addrMax])]

/-! ### The audio decoder and the close of a frame (R100 to R102, R80, R81) -/

theorem audioOverrun_some {p : Nat} (h : 0xFFFF00 < p) (hp : p ≤ Config.addrMax) : audioOverrun p = some 0x1000000 := by
  simp only [Config.addrMax] at hp
  obtain ⟨d, hd⟩ : ∃ d, p + d = 0x1000000 := ⟨0x1000000 - p, by omega⟩
  have hsplit : List.range Config.audioLen = List.range d ++ (List.range (Config.audioLen - d)).map (d + ·) := by
    rw [← List.range_add]; congr 1; simp only [Config.audioLen]; omega
  have hpos : Config.audioLen - d = (Config.audioLen - d - 1) + 1 := by simp only [Config.audioLen]; omega
  rw [audioOverrun, hsplit, List.map_append, List.find?_append]
  have hnone : ((List.range d).map (p + ·)).find? (fun a => a > Config.addrMax) = none := by
    simp only [List.find?_eq_none, List.mem_map, List.mem_range, decide_eq_true_eq]
    rintro a ⟨i, hi, rfl⟩
    simp only [Config.addrMax]; omega
  rw [hnone, hpos, List.range_succ_eq_map]
  simp [Config.addrMax, hd]

/-- The audio decode either gives the 256 samples, or raises for the first address past the top. -/
theorem audioDecode_cases (m : Memory) :
    ((window24 m audPtrAddr).toNat ≤ 0xFFFF00 ∧
      audioDecode m = .ok (Vector.ofFn fun i => sample (m.byteAt ((window24 m audPtrAddr).toNat + i.val)))) ∨
    (0xFFFF00 < (window24 m audPtrAddr).toNat ∧ audioDecode m = .error (.oob 0x1000000)) := by
  have hr : read24 m audPtrAddr = .ok (window24 m audPtrAddr) :=
    read24_ok m (by simp [audPtrAddr, Config.addrMax])
  rcases Nat.lt_or_ge 0xFFFF00 (window24 m audPtrAddr).toNat with h | h
  · refine .inr ⟨h, ?_⟩
    simp only [audioDecode, hr, bind, Except.bind, audioOverrun_some h (addr_le _)]
  · refine .inl ⟨h, ?_⟩
    simp only [audioDecode, hr, bind, Except.bind, audioOverrun_none h]
    rfl

/-- A frame closes with both outputs, or with the audio decoder's fault. -/
theorem finishFrame_cases (s : State) :
    (∃ audio, audioDecode s.mem = .ok audio ∧
      s.finishFrame = (s.setPhase .idle).answer (.frame (videoDecode s.mem) audio)) ∨
    (audioDecode s.mem = .error (.oob 0x1000000) ∧ s.finishFrame = s.takeFault (.oob 0x1000000)) := by
  rcases audioDecode_cases s.mem with ⟨-, h⟩ | ⟨-, h⟩
  · exact .inl ⟨_, h, by simp only [State.finishFrame, h]⟩
  · exact .inr ⟨h, by simp only [State.finishFrame, h]⟩

/-! ### The iteration count (R64) -/

theorem countIteration_of_not_burst {s : State} (h : ∀ pc n, s.phase ≠ .burst pc n) : s.countIteration = s := by
  unfold State.countIteration
  split
  · next pc n hp => exact absurd hp (h pc n)
  · rfl
  · rfl

theorem countIteration_burst {s : State} {pc : Addr} {n : Nat} (h : s.phase = .burst pc n) :
    s.countIteration = s.setPhase (if n + 1 < Config.burstLen then .burst pc (n + 1) else .decode) := by
  unfold State.countIteration
  rw [h]

/-! ### The step, by the part of the frame it is in -/

theorem step_idle {s : State} (h : s.phase = .idle) : step s = .next s.hostStep := by
  unfold step; rw [h]

theorem step_decode {s : State} (h : s.phase = .decode) : step s = .next s.finishFrame := by
  unfold step; rw [h]

theorem step_burst {s : State} {pc : Addr} {n : Nat} (h : s.phase = .burst pc n) :
    step s = instructionStep s pc := by
  unfold step; rw [h]

theorem hostStep_nil {s : State} (h : s.pending = []) : s.hostStep = s := by
  unfold State.hostStep; rw [h]

theorem hostStep_cons {s : State} {op : HostOp} {rest : List HostOp} (h : s.pending = op :: rest) :
    s.hostStep = op.apply { s with pending := rest } := by
  unfold State.hostStep; rw [h]

end Sys2Proof.Machine
end

