-- ==== Sys2Proof/Laws/PerInstr.lean ====
section
/-! SUPPORT. Per-instruction families: statements about an instruction as syntax, one lemma per constructor. -/

namespace Sys2Proof.Laws.NineBytes

/-- "Every instruction is exactly 9 bytes long" (R50), and its fields are not restricted (R54). -/
def Statement (i : Instr) : Prop := (encode i).length = Config.instrBytes ∧ i.wellFormed = true

theorem bbj (a b c : Addr) : Statement (.bbj a b c) := ⟨rfl, rfl⟩

end Sys2Proof.Laws.NineBytes
end

