-- ==== Sys2Proof/Tests/Slice0.lean ====
section
/-! SUPPORT. Small tests, each expected result taken from spec/95_test_vectors.md or from the rule its comment names, and
for every statement with hypotheses a concrete state that meets them all. -/

namespace Sys2Proof.Tests

open Sys2Proof.Machine

/-! ### Helpers -/

/-- A machine in the middle of a frame, at instruction `n` of its burst. -/
def inBurst (cells : List (Nat × List Byte)) (pc : Addr) (n : Nat) : State :=
  { State.reset with mem := cells.foldl (fun m c => m.storeBytes c.1 c.2) [], run := true, phase := .burst pc n }

/-- A machine between frames, with operations waiting. -/
def between (ops : List HostOp) : State := { State.reset with pending := ops }

/-- A machine between frames whose last frame faulted. -/
def faulted (ops : List HostOp) : State :=
  { State.reset with fault := some (.oob 0x1000000), reply := some (.fault (.oob 0x1000000)), pending := ops }

def nextState (o : Host.Outcome State Fault Refusal) : Option State :=
  match o with
  | .next s => some s
  | .fault _ => none
  | .refused _ => none

/-! ### Well-formedness: each check refuses an ill-formed term -/

theorem test_every_instruction_is_wellFormed : Instr.wellFormed (.bbj 0xFFFFFF 0xFFFFFF 0xFFFFFF) = true := by decide
theorem test_placement_refused_above : wellPlaced 0xFFFFFA = false := by decide
theorem test_placement_allowed_below : wellPlaced 0xFFFFF9 = true := by decide
theorem test_duty_refuses_key_16 : (HostOp.keyPress 16).dutiful = false ∧ (HostOp.keyRelease 16).dutiful = false := by
  decide
theorem test_duty_refuses_long_image (bytes : List Byte) (h : bytes.length = 0x1000009) :
    (HostOp.loadImage bytes).dutiful = false := by
  simp [HostOp.dutiful, h, Config.memSize]

/-! ### Decoding: words written out from R51 and R57 -/

/-- R57: `BBJ 0x000030, 0x018040, 0x000012`. -/
theorem test_decode_R57 : decode [0x00, 0x00, 0x30, 0x01, 0x80, 0x40, 0x00, 0x00, 0x12] =
    .ok (.bbj 0x000030 0x018040 0x000012, []) := by rfl
/-- R51: nine different bytes, so that no byte can be read in another's place. -/
theorem test_decode_each_byte : decode [0x01, 0x23, 0x45, 0x67, 0x89, 0xAB, 0xCD, 0xEF, 0x10, 0xFF] =
    .ok (.bbj 0x012345 0x6789AB 0xCDEF10, [0xFF]) := by rfl
/-- R51: `A = I[71:48]`, `B = I[47:24]`, `C = I[23:0]`, byte at `pc` in bits 71..64. -/
theorem test_decode_table_word : decodeTableWord 72 0x0123456789ABCDEF10 = some (.bbj 0x012345 0x6789AB 0xCDEF10) := by
  decide
theorem test_decode_truncated : decode [0x00, 0x00] = .error (.truncated 2) := by rfl
theorem test_encode_R57 : encode (.bbj 0x000030 0x018040 0x000012) =
    [0x00, 0x00, 0x30, 0x01, 0x80, 0x40, 0x00, 0x00, 0x12] := by decide
/-- The first step from reset with a word placed runs that word (log 10): `BBJ 0x000030, 0x018040, 0x000012`. -/
theorem test_withFetchWord_runs_the_word :
    (nextState (step (State.reset.withFetchWord 72 0x000030018040000012))).map (fun t => (t.phase, t.run)) =
      some (.burst 0x000012 1, true) := by decide

/-! ### The access primitives (vectors M5, M6, M7, M11, M14, M16) -/

def topBytes : Memory := Memory.storeBytes [] 0xFFFFFD [0xAB, 0xCD, 0xEF, 0x01, 0x02, 0x03]
theorem test_M5_M6_window_reaches_headroom :
    read24 topBytes 0xFFFFFE = .ok 0xCDEF01 ∧ read24 topBytes 0xFFFFFF = .ok 0xEF0102 := ⟨by rfl, by rfl⟩
theorem test_M7_read_past_the_top : read24 topBytes 0x1000000 = .error (.oob 0x1000000) := by rfl
theorem test_M11_write16_at_the_top :
    memWrite2 [] 0xFFFFFF 0x1234 = .ok [(0xFFFFFF, 0x12), (0x1000000, 0x34)] := by rfl
theorem test_M14_copy_into_own_pointer :
    copyByte [(0x42, 0x60), (0x52, 0x42), (0x60, 0x99)] 0x40 0x50 =
      .ok [(0x42, 0x99), (0x52, 0x42), (0x60, 0x99)] := by rfl
theorem test_M16_source_reported_first : copyByte [] 0x1000000 0x1000003 = .error (.oob 0x1000000) := by rfl
/-- Writing the unlisted byte removes the entry, so that equal stores are equal lists. -/
theorem test_store_keeps_the_canonical_form :
    Memory.storeAt [(3, 7), (5, 9)] 5 0x00 = [(3, 7)] ∧ Memory.storeAt [(3, 7), (5, 9)] 4 0x08 = [(3, 7), (4, 8), (5, 9)] := by
  decide

/-! ### The instruction (vectors I4 and I12) -/

/-- I4: the store hits the own `C` field's low byte, and the jump goes to the modified `C`. -/
theorem test_I4_store_into_own_target :
    (nextState (step (inBurst [(9, [0x00, 0x00, 0x40, 0x00, 0x00, 0x11, 0x00, 0x00, 0x1B]), (0x40, [0x24])] 0x000009 0))).map
      (fun t => (t.phase, t.mem.byteAt 0x11)) = some (.burst 0x000024 1, 0x24) := by decide
/-- I12: at `0xFFFFFA` the copy is done, then the fetch of `C` raises. -/
theorem test_I12_copy_then_fault :
    (nextState (step (inBurst [(0xFFFFFA, [0x00, 0x00, 0x30, 0x00, 0x00, 0x32]), (0x30, [0x77])] 0xFFFFFA 0))).map
      (fun t => (t.mem.byteAt 0x32, t.fault, t.run, t.phase)) =
      some (0x77, some (.oob 0x1000000), false, .idle) := by decide

/-! ### Host operations and the tick (vectors K6, K4, L1, S-12, S-15) -/

theorem test_K6_four_keys : pressKey (pressKey (pressKey (pressKey 0 1) 6) 8) 15 = 0x8142 := by decide
theorem test_K4_release : releaseKey 0x8001 0 = 0x8000 := by decide
theorem test_L1_image_clears_the_fault :
    (nextState (step (faulted [.loadImage [0x00, 0x00, 0x00, 0x00, 0x09]]))).map (fun t => (t.mem, t.fault, t.run)) =
      some ([(4, 0x09)], none, false) := by decide
/-- S-12: `LFT = 100/3`, `Tick(60)`: a frame, `LFT = 50`. -/
theorem test_S12_phase_is_kept :
    State.admits { State.reset with run := true, lft := 100 / 3 } 60 = some 50 := by decide +kernel
/-- S-6: `delta = 50/3` exactly is not less, so the frame runs. -/
theorem test_S6_exact_period_runs :
    State.admits { State.reset with run := true, lft := 100 / 3 } 50 = some 50 := by decide +kernel
theorem test_S15_start_ignored :
    (nextState (step (faulted [.start]))).map (fun t => (t.run, t.fault)) = some (false, some (.oob 0x1000000)) := by decide

/-! ### The peripherals (vectors T-V, V1, A2, A4) -/

theorem test_palette_100 : palette 100 = ⟨0x66, 0xCC, 0xCC, 0xFF⟩ ∧ palette 170 = ⟨0xCC, 0xCC, 0x66, 0xFF⟩ := by decide
theorem test_palette_ends : palette 215 = ⟨0xFF, 0xFF, 0xFF, 0xFF⟩ ∧ palette 216 = ⟨0x00, 0x00, 0x00, 0xFF⟩ := by decide
theorem test_packed_43 : (palette 43).packed = 0x333333FF := by decide
theorem test_V1_pixel : pixel [(5, 0x01), (0x018040, 0x2B)] 0x8040 = ⟨0x33, 0x33, 0x33, 0xFF⟩ := by decide
theorem test_A2_samples : sample 0x80 = -1 ∧ sample 0x7F = 127 / 128 ∧ sample 0xC0 = -1 / 2 := by decide +kernel
theorem test_A3_A4_overrun : audioOverrun 0xFFFF00 = none ∧ audioOverrun 0xFFFF01 = some 0x1000000 := by decide +kernel

/-! ### Witnesses: for each statement with hypotheses, concrete values that meet them all -/

/-- A `BBJ 0x20, 0x21, 0x09` at the highest legal `pc`, its last two bytes in the headroom (I11). -/
def atTheTop : State :=
  inBurst [(0xFFFFF9, [0x00, 0x00, 0x20, 0x00, 0x00, 0x21, 0x00, 0x00, 0x09]), (0x20, [0x5A])] 0xFFFFF9 65534

/-- The no-op program of R66, at its `HALT`. -/
def noOp : State := inBurst [(4, [0x09]), (9, [0x00, 0x00, 0x09, 0x00, 0x00, 0x09, 0x00, 0x00, 0x09])] 0x000009 0

theorem witness_DecodeOfEncodeIsTheInstruction : Instr.wellFormed (.bbj 0 0x7FFFFF 0xFFFFFF) = true := by decide
theorem witness_EncodeOfDecodeIsTheBytes :
    decode [0xFF, 0xFF, 0xFF, 0x00, 0x00, 0x00, 0x80, 0x00, 0x01] = .ok (.bbj 0xFFFFFF 0 0x800001, []) := by rfl
theorem witness_OnlyTooFewBytesAreRejected :
    9 ≤ [0, 0, 0, 0, 0, 0, 0, 0, (0 : Byte)].length ∧ [0, 0, 0, 0, 0, 0, 0, (0 : Byte)].length < 9 := by decide
theorem witness_addresses_at_the_bound : ¬ (0xFFFFFF < 0xFFFFFF) ∧ 0xFFFFFF ≤ 0xFFFFFF ∧ 0xFFFFFF < 0x1000000 := by decide
theorem witness_ByteByteJumpCompletes :
    atTheTop.phase = .burst 0xFFFFF9 65534 ∧ (0xFFFFF9 : Addr).toNat ≤ 0xFFFFF9 ∧
      (nextState (exec (.bbj 0x20 0x21 0x09) atTheTop)).map (·.phase) = some (.burst 0x000009 65534) := by decide
theorem witness_ByteByteJumpCompletes_hits_own_target :
    (nextState (exec (.bbj 0x20 0xFFFFFF 0x09) atTheTop)).map (·.phase) = some (.burst 0x5A0009 65534) := by decide
theorem witness_ByteByteJumpCompletes_source_is_destination :
    noOp.mem.wf ∧ noOp.phase = .burst 9 0 ∧ (9 : Addr).toNat ≤ 0xFFFFF9 := by decide
theorem witness_ByteByteJumpFaultsNearTheTop_after_copy :
    (inBurst [] 0xFFFFFA 0).phase = .burst 0xFFFFFA 0 ∧ 0xFFFFFA ≤ (0xFFFFFA : Addr).toNat ∧
      (0xFFFFFC : Addr).toNat ≤ 0xFFFFFC ∧
      (nextState (exec (.bbj 0 0 0) (inBurst [] 0xFFFFFC 0))).map (·.fault) = some (some (.oob 0x1000002)) := by decide
theorem witness_ByteByteJumpFaultsNearTheTop_before_copy :
    0xFFFFFD ≤ (0xFFFFFD : Addr).toNat ∧
      (nextState (exec (.bbj 0 0 0) (inBurst [] 0xFFFFFD 0))).map (·.fault) = some (some (.oob 0x1000000)) ∧
      (nextState (exec (.bbj 0 0 0) (inBurst [] 0xFFFFFF 0))).map (·.fault) = some (some (.oob 0x1000002)) := by decide
theorem witness_NoInstructionOutsideABurst :
    State.reset.phase = .idle ∧ (State.reset.setPhase .decode).phase = .decode := by decide
theorem witness_StepRunsTheDecodedInstruction :
    atTheTop.phase = .burst 0xFFFFF9 65534 ∧
      decode (fetch atTheTop.mem 0xFFFFF9) = .ok (.bbj 0x20 0x21 0x09, []) := ⟨by rfl, by rfl⟩
theorem witness_StepRunsTheDecodedInstruction_last :
    (nextState (step (atTheTop.setPhase (.burst 0xFFFFF9 65535)))).map (·.phase) = some .decode := by decide
theorem witness_StepRunsTheDecodedInstruction_fault :
    (nextState (exec (.bbj 0 0 0) (inBurst [] 0xFFFFFF 0))).map (·.phase) = some .idle := by decide
theorem witness_StepIsCopyByteThenRead24 :
    copyByte [] 0xFFFFFD 0x1000000 = .error (.oob 0x1000000) ∧ copyByte [] 0xFFFFFC 0xFFFFFF = .ok [] ∧
      read24 [] 0x1000002 = .error (.oob 0x1000002) ∧ read24 [] 0xFFFFFF = .ok 0 := ⟨by rfl, by rfl, by rfl, by rfl⟩
theorem witness_StoresAreSeenByLaterFetches :
    atTheTop.phase = .burst 0xFFFFF9 65534 ∧ 65534 + 1 < 65536 ∧ (0xFFFFF9 : Addr).toNat ≤ 0xFFFFF9 ∧
      decode (fetch atTheTop.mem 0xFFFFF9) = .ok (.bbj 0x20 0x21 0x09, []) :=
  ⟨by rfl, by decide, by decide, by rfl⟩
theorem witness_BurstAlwaysTerminates : noOp.phase = .burst 0x000009 0 := by decide
theorem witness_NoOpProgramLeavesTheStore :
    noOp.mem.wf ∧ noOp.mem.byteAt 2 = 0x00 ∧ noOp.mem.byteAt 3 = 0x00 ∧ noOp.mem.byteAt 4 = 0x09 ∧
      fetch noOp.mem 0x000009 = [0x00, 0x00, 0x09, 0x00, 0x00, 0x09, 0x00, 0x00, 0x09] := by decide
theorem witness_HaltIdlesToTheEndOfItsBurst :
    noOp.mem.wf ∧ noOp.phase = .burst 9 0 ∧ 0 < 65536 ∧ (9 : Addr).toNat ≤ 0xFFFFF9 ∧
      decode (fetch noOp.mem 9) = .ok (Instr.halt 9 9, []) := ⟨by decide, by rfl, by decide, by decide, by rfl⟩

/-- A running machine whose next operation is a tick at exactly one period after `LFT`. -/
def dueTick : State := { between [.tick (50 / 3)] with run := true, keys := 0x8142 }

theorem witness_FrameOpens_and_TickKeepsThePhase :
    dueTick.phase = .idle ∧ dueTick.pending = [.tick (50 / 3)] ∧ dueTick.run = true ∧
      (50 / 3 : Rat) ≤ 50 / 3 - dueTick.lft := by decide +kernel
theorem test_K8_keyboard_word_written :
    (nextState (step dueTick)).map (fun t => (t.mem, t.phase)) = some ([(0, 0x81), (1, 0x42)], .burst 0 0) := by
  decide +kernel
theorem witness_EarlyOrStoppedTickIsANoOp_stopped :
    (between [.tick 1000]).phase = .idle ∧ (between [.tick 1000]).pending = [.tick 1000] ∧ (between [.tick 1000]).run = false := by
  decide
theorem witness_EarlyOrStoppedTickIsANoOp_early :
    (16 : Rat) - dueTick.lft < 50 / 3 ∧ dueTick.run = true := by decide +kernel
theorem witness_FrameClosesWithBothOutputs :
    (State.reset.setPhase .decode).phase = .decode ∧ (window24 [(6, 0xFF), (7, 0xFF)] 6).toNat ≤ 0xFFFF00 := by decide
theorem witness_AudioOverrunAbortsTheFrame : 0xFFFF00 < (window24 [(6, 0xFF), (7, 0xFF), (8, 0x01)] 6).toNat := by decide
theorem witness_operations_await :
    (between [.stop]).awaits .stop [] ∧ (between [.start]).awaits .start [] ∧ (between [.reset]).awaits .reset [] ∧
      (between [.keyPress 15]).awaits (.keyPress 15) [] ∧ (between [.keyRelease 16]).awaits (.keyRelease 16) [] ∧
      (between [.isRunning]).awaits .isRunning [] ∧ (between [.inspect]).awaits .inspect [] ∧
      (between [.readFault]).awaits .readFault [] :=
  ⟨⟨rfl, rfl⟩, ⟨rfl, rfl⟩, ⟨rfl, rfl⟩, ⟨rfl, rfl⟩, ⟨rfl, rfl⟩, ⟨rfl, rfl⟩, ⟨rfl, rfl⟩, ⟨rfl, rfl⟩⟩
theorem witness_StepsMakeUpTheAtomicOperation : dueTick.awaits (.tick (50 / 3)) [] := ⟨rfl, rfl⟩
theorem witness_StopTakesEffectOnlyBetweenFrames :
    noOp.phase.inFrame = true ∧ (nextState (step { noOp with pending := [.stop] })).map (·.pending) = some [.stop] := by decide
theorem witness_StartIsIgnoredWhileFaulted :
    (between [.start]).fault = none ∧ (faulted [.start]).fault ≠ none ∧ (faulted [.start]).awaits .start [] :=
  ⟨rfl, by decide, rfl, rfl⟩
theorem witness_PixelsAreRowMajorFromThePage : 255 < 256 ∧ 0xFF * 65536 + 255 * 256 + 255 = 0xFFFFFF := by decide
theorem witness_PaletteIsTheWebSafeCube : 216 ≤ (216 : Byte).toNat ∧ 216 ≤ (255 : Byte).toNat := by decide
theorem getD_replicate_lt (n i : Nat) (v d : Byte) (h : i < n) : (List.replicate n v).getD i d = v := by
  simp [List.getD, h]
/-- A store whose byte 5 selects page `0xDC`, filled with index 220. -/
def filledPage (n : Nat) : Memory := (5, 0xDC) :: Memory.ofBytesAt 0xDC0000 (List.replicate n 0xDC)
theorem filledPage_byte (n i : Nat) (h : i < n) :
    (filledPage n).byteAt (((filledPage n).byteAt 5).toNat * 65536 + i) = 0xDC := by
  have h5 : ((filledPage n).byteAt 5).toNat = 0xDC := rfl
  have hne : ¬ 5 = 0xDC * 65536 + i := by omega
  have hsub : 0xDC * 65536 + i - 0xDC0000 = i := by omega
  rw [h5, filledPage, Memory.byteAt_cons, if_neg hne, Memory.byteAt_ofBytesAt, if_pos (by omega), hsub,
    getD_replicate_lt n i 0xDC Memory.unlisted h]
theorem witness_FramebufferOf220IsBlack :
    ∀ i < 65536, (filledPage 65536).byteAt (((filledPage 65536).byteAt 5).toNat * 65536 + i) = 0xDC :=
  fun i hi => filledPage_byte 65536 i hi
theorem witness_SamplesAreSignedBytesOver128 :
    0xFFFF00 = ((0xFF : Byte).toNat * 65536 + (0xFF : Byte).toNat * 256 + (0x00 : Byte).toNat) ∧ 0xFFFF00 ≤ 0xFFFF00 := by
  decide
theorem witness_LoadImage_fits (bytes : List Byte) (h : bytes.length = 0x1000008) :
    (between [.loadImage bytes]).awaits (.loadImage bytes) [] ∧ bytes.length ≤ 0x1000008 := ⟨⟨rfl, rfl⟩, by omega⟩
theorem witness_LoadImage_oversized :
    (between [.loadImage (List.replicate 0x1000009 0xFF)]).awaits (.loadImage (List.replicate 0x1000009 0xFF)) [] ∧
      0x1000008 < (List.replicate 0x1000009 (0xFF : Byte)).length :=
  ⟨⟨rfl, rfl⟩, by rw [List.length_replicate]; omega⟩
theorem witness_fault_sites :
    (inBurst [] 0xFFFFFA 0).fault = none ∧
      (nextState (step (inBurst [] 0xFFFFFA 0))).map (·.fault) = some (some (.oob 0x1000000)) ∧
      (nextState (step ((inBurst [(6, [0xFF, 0xFF, 0x01])] 0 0).setPhase .decode))).map (·.fault) =
        some (some (.oob 0x1000000)) := by
  refine ⟨by decide, by decide, by decide +kernel⟩

/-- A faulted state meets the invariant. -/
theorem faulted_meets_the_invariant (ops : List HostOp) : (faulted ops).Inv where
  memory := Memory.wf_nil
  latch := by
    intro e he
    have : e = .oob 0x1000000 := by simpa [faulted] using he.symm
    subst this
    exact ⟨⟨rfl, by decide, by decide⟩, rfl⟩
  running := by intro h; cases h
  counter := trivial

theorem witness_FaultedMachineStaysStopped :
    (faulted [.start]).Inv ∧ (faulted [.start]).fault = some (.oob 0x1000000) ∧
      (faulted [.start]).pending.head? ≠ some .reset ∧
      (∀ bytes, (faulted [.start]).pending.head? = some (.loadImage bytes) → 0x1000008 < bytes.length) ∧
      (nextState (step (faulted [.start]))).isSome = true :=
  ⟨faulted_meets_the_invariant _, rfl, by decide, (by intro b h; cases h), by decide⟩
theorem witness_EveryStepKeepsTheInvariant : (faulted [.tick 40]).Inv ∧ (nextState (step (faulted [.tick 40]))).isSome = true :=
  ⟨faulted_meets_the_invariant _, by decide⟩
theorem witness_LastFrameTimeStaysOnTheGrid : State.reset.onGrid ∧ (nextState (step State.reset)).isSome = true :=
  ⟨⟨0, by decide +kernel⟩, by decide⟩
theorem witness_HeadroomChangesOnlyByResetOrImage :
    (nextState (step atTheTop)).map (·.mem.byteAt 0x1000001) = some (atTheTop.mem.byteAt 0x1000001) ∧
      atTheTop.phase ≠ .idle := by decide
theorem witness_BurstDependsOnlyOnTheStore :
    noOp.phase.inFrame = true ∧ ({ noOp with keys := 0xFFFF, run := false } : State).phase = noOp.phase ∧
      ({ noOp with keys := 0xFFFF, run := false } : State).mem = noOp.mem ∧ (nextState (step noOp)).isSome = true := by decide
theorem witness_FrameIsAFunctionOfStoreAndKeys :
    ({ noOp with lft := 7, fault := some (.oob 0x1000001) } : State).mem = noOp.mem ∧
      ({ noOp with lft := 7 } : State).keys = noOp.keys := by decide
theorem witness_KeepingBelowTheTopIsSafe :
    noOp.faultFree ∧ (∀ j < 1, ∀ u, Host.Core.run core j noOp = .next u →
      (∀ pc n, u.phase = .burst pc n → wellPlaced pc = true) ∧
      (u.phase = .decode → (window24 u.mem 6).toNat ≤ 0xFFFF00)) := by
  refine ⟨rfl, fun j hj u hu => ?_⟩
  obtain rfl : j = 0 := by omega
  cases hu
  refine ⟨fun pc n h => ?_, fun h => by cases h⟩
  cases h
  decide
theorem witness_TickAnswersIdleFrameOrFault : State.reset.fault = none := rfl
/-- The due clause, at its boundary: a started machine and a tick exactly one frame's time after `LFT`. -/
theorem witness_TickAnswersIdleFrameOrFault_due :
    (State.reset.setRun true).fault = none ∧ (State.reset.setRun true).run = true ∧
      (50 / 3 : Rat) ≤ 50 / 3 - (State.reset.setRun true).lft := by decide +kernel
theorem witness_BootRunsTheImageAtItsPcstart :
    [0x00, 0x00, 0x00, 0x00, (0x09 : Byte)].length ≤ 0x1000008 ∧ (50 / 3 : Rat) ≤ 50 / 3 - Config.t0 := by decide +kernel

end Sys2Proof.Tests
end

section
/-! SUPPORT. What one step can do, said once (spec/41_host_operations.md R71, R80; 40_bytebytejump.md R61, R62, R64): an
inversion of `step` from which every statement about all steps is derived. -/

namespace Sys2Proof.Machine

theorem exec_bbj (a b c : Addr) (s : State) : exec (.bbj a b c) s = execBbj a b c s := rfl

/-- The copy of the instruction standing at `pc`, its addresses read from the store: `M[B] <- M[A]` (R61). -/
def State.copyAt (s : State) (pc : Addr) : State :=
  s.storeByte (window24 s.mem (pc.toNat + 3)) (s.loadByte (window24 s.mem pc.toNat))

@[simp] theorem State.copyAt_mem (s : State) (pc : Addr) : (s.copyAt pc).mem =
    s.mem.storeAt (window24 s.mem (pc.toNat + 3)).toNat (s.mem.byteAt (window24 s.mem pc.toNat).toNat) := rfl
@[simp] theorem State.copyAt_keys (s : State) (pc : Addr) : (s.copyAt pc).keys = s.keys := rfl
@[simp] theorem State.copyAt_lft (s : State) (pc : Addr) : (s.copyAt pc).lft = s.lft := rfl
@[simp] theorem State.copyAt_run (s : State) (pc : Addr) : (s.copyAt pc).run = s.run := rfl
@[simp] theorem State.copyAt_fault (s : State) (pc : Addr) : (s.copyAt pc).fault = s.fault := rfl
@[simp] theorem State.copyAt_phase (s : State) (pc : Addr) : (s.copyAt pc).phase = s.phase := rfl
@[simp] theorem State.copyAt_pending (s : State) (pc : Addr) : (s.copyAt pc).pending = s.pending := rfl
@[simp] theorem State.copyAt_reply (s : State) (pc : Addr) : (s.copyAt pc).reply = s.reply := rfl

/-- The part of the frame that follows instruction `n` of a burst, whose jump went to `pc` (R64). -/
def Phase.afterInstruction (pc : Addr) (n : Nat) : Phase :=
  if n + 1 < Config.burstLen then .burst pc (n + 1) else .decode

theorem Phase.afterInstruction_counted (pc : Addr) (n : Nat) : (Phase.afterInstruction pc n).counted := by
  unfold Phase.afterInstruction
  split
  · assumption
  · trivial

/-- Everything a step of a frame in progress can do: an instruction completes or faults on either side of its copy
(R61, R62), and the frame closes with its outputs or with the audio decoder's fault (R80, R81, R102). -/
inductive FrameStep (s : State) : State → Prop where
  | jumps {pc : Addr} {n : Nat} (hphase : s.phase = .burst pc n) (hpc : pc.toNat + 6 ≤ Config.addrMax) :
      FrameStep s ((s.copyAt pc).setPhase (Phase.afterInstruction (window24 (s.copyAt pc).mem (pc.toNat + 6)) n))
  | faultsAfterCopy {pc : Addr} {n : Nat} (hphase : s.phase = .burst pc n) (hcopy : pc.toNat + 3 ≤ Config.addrMax)
      (hpc : Config.addrMax < pc.toNat + 6) : FrameStep s ((s.copyAt pc).takeFault (.oob (pc.toNat + 6)))
  | faultsBeforeCopy {pc : Addr} {n : Nat} (hphase : s.phase = .burst pc n) (hpc : Config.addrMax < pc.toNat + 3) :
      FrameStep s (s.takeFault (.oob (pc.toNat + 3)))
  | emits {audio : AudioOut} (hphase : s.phase = .decode) (haudio : audioDecode s.mem = .ok audio) :
      FrameStep s ((s.setPhase .idle).answer (.frame (videoDecode s.mem) audio))
  | audioFaults (hphase : s.phase = .decode) (haudio : audioDecode s.mem = .error (.oob 0x1000000)) :
      FrameStep s (s.takeFault (.oob 0x1000000))

/-- Everything a step can do: wait for the host, perform the host's next operation, or go on with the frame (R71). -/
inductive StepsTo (s : State) : State → Prop where
  | waits (hphase : s.phase = .idle) (hpending : s.pending = []) : StepsTo s s
  | hostOp {op : HostOp} {rest : List HostOp} (h : s.awaits op rest) : StepsTo s (op.apply { s with pending := rest })
  | frame {t : State} (h : FrameStep s t) : StepsTo s t

/-- The step in a burst: `exec` of the three windows at `pc`, then the count. -/
theorem step_of_execBbj {s t : State} {pc : Addr} {n : Nat} (hphase : s.phase = .burst pc n)
    (hexec : execBbj (window24 s.mem pc.toNat) (window24 s.mem (pc.toNat + 3)) (window24 s.mem (pc.toNat + 6)) s =
      .next t) : step s = .next t.countIteration := by
  simp only [step_burst hphase, instructionStep, decode_fetch, exec_bbj, hexec]

/-- The step in a burst, by the three ranges of `pc` (R62). -/
theorem step_frameStep_of_burst {s : State} {pc : Addr} {n : Nat} (hphase : s.phase = .burst pc n) :
    ∃ t, step s = .next t ∧ FrameStep s t := by
  rcases pc_range pc with hpc | ⟨hcopy, hpc⟩ | hpc
  · refine ⟨_, ?_, .jumps hphase hpc⟩
    rw [step_of_execBbj hphase (execBbj_jumps hphase hpc _ _ _), jumpTarget_window24]
    exact congrArg _ (countIteration_burst rfl)
  · refine ⟨_, ?_, .faultsAfterCopy hphase hcopy hpc⟩
    rw [step_of_execBbj hphase (execBbj_faults_after_copy hphase hcopy hpc _ _ _)]
    rfl
  · refine ⟨_, ?_, .faultsBeforeCopy hphase hpc⟩
    rw [step_of_execBbj hphase (execBbj_faults_before_copy hphase hpc _ _ _)]
    rfl

/-- Every step has a next state, which is one of `StepsTo`'s. -/
theorem step_stepsTo (s : State) : ∃ t, step s = .next t ∧ StepsTo s t := by
  cases hphase : s.phase with
  | idle =>
    cases hpending : s.pending with
    | nil => exact ⟨s, by rw [step_idle hphase, hostStep_nil hpending], .waits hphase hpending⟩
    | cons op rest => exact ⟨_, by rw [step_idle hphase, hostStep_cons hpending], .hostOp ⟨hphase, hpending⟩⟩
  | burst pc n =>
    obtain ⟨t, hstep, ht⟩ := step_frameStep_of_burst hphase
    exact ⟨t, hstep, .frame ht⟩
  | decode =>
    rcases finishFrame_cases s with ⟨audio, haudio, hfinish⟩ | ⟨haudio, hfinish⟩
    · exact ⟨_, by rw [step_decode hphase, hfinish], .frame (.emits hphase haudio)⟩
    · exact ⟨_, by rw [step_decode hphase, hfinish], .frame (.audioFaults hphase haudio)⟩

theorem stepsTo_of_step {s t : State} (h : step s = .next t) : StepsTo s t := by
  obtain ⟨u, hu, hsu⟩ := step_stepsTo s
  obtain rfl : t = u := by simpa [hu] using h.symm
  exact hsu

theorem FrameStep.inFrame {s t : State} (h : FrameStep s t) : s.phase.inFrame = true := by
  cases h with
  | jumps hphase | faultsAfterCopy hphase | faultsBeforeCopy hphase | emits hphase | audioFaults hphase =>
    rw [hphase]; rfl

end Sys2Proof.Machine
end

section
/-! SUPPORT. What each of the host's operations leaves unchanged (spec/41_host_operations.md R70 to R83). -/

namespace Sys2Proof.Machine

namespace State

@[simp] theorem loadImage_keys (s : State) (bytes : List Byte) : (s.loadImage bytes).keys = s.keys := by
  unfold loadImage; split <;> rfl
@[simp] theorem loadImage_lft (s : State) (bytes : List Byte) : (s.loadImage bytes).lft = s.lft := by
  unfold loadImage; split <;> rfl
@[simp] theorem loadImage_run (s : State) (bytes : List Byte) : (s.loadImage bytes).run = s.run := by
  unfold loadImage; split <;> rfl
@[simp] theorem loadImage_phase (s : State) (bytes : List Byte) : (s.loadImage bytes).phase = s.phase := by
  unfold loadImage; split <;> rfl

theorem loadImage_oversized {s : State} {bytes : List Byte} (h : Config.memSize < bytes.length) :
    s.loadImage bytes = s.answer (.refusedImage (.tooLarge bytes.length)) := by
  simp [loadImage, h]

theorem loadImage_fits {s : State} {bytes : List Byte} (h : bytes.length ≤ Config.memSize) :
    s.loadImage bytes = { s with mem := Memory.ofImage bytes, fault := none, reply := some .loaded } := by
  simp [loadImage, Nat.not_lt.mpr h]

@[simp] theorem start_mem (s : State) : s.start.mem = s.mem := by unfold start; split <;> rfl
@[simp] theorem start_keys (s : State) : s.start.keys = s.keys := by unfold start; split <;> rfl
@[simp] theorem start_lft (s : State) : s.start.lft = s.lft := by unfold start; split <;> rfl
@[simp] theorem start_fault (s : State) : s.start.fault = s.fault := by unfold start; split <;> rfl
@[simp] theorem start_phase (s : State) : s.start.phase = s.phase := by unfold start; split <;> rfl

theorem start_fault_free {s : State} (h : s.fault = none) : s.start = (s.setRun true).answer .done := by
  simp [start, h]

theorem start_faulted {s : State} (h : s.fault ≠ none) : s.start = s.answer .done := by
  simp [start, h]

@[simp] theorem stop_mem (s : State) : s.stop.mem = s.mem := rfl
@[simp] theorem stop_keys (s : State) : s.stop.keys = s.keys := rfl
@[simp] theorem stop_lft (s : State) : s.stop.lft = s.lft := rfl
@[simp] theorem stop_run (s : State) : s.stop.run = false := rfl
@[simp] theorem stop_fault (s : State) : s.stop.fault = s.fault := rfl
@[simp] theorem stop_phase (s : State) : s.stop.phase = s.phase := rfl

@[simp] theorem beginFrame_mem (s : State) : s.beginFrame.mem =
    (s.mem.storeAt 0 (s.keys.extractLsb' 8 8)).storeAt 1 (s.keys.extractLsb' 0 8) := by rw [beginFrame_eq]
@[simp] theorem beginFrame_keys (s : State) : s.beginFrame.keys = s.keys := by rw [beginFrame_eq]
@[simp] theorem beginFrame_lft (s : State) : s.beginFrame.lft = s.lft := by rw [beginFrame_eq]
@[simp] theorem beginFrame_run (s : State) : s.beginFrame.run = s.run := by rw [beginFrame_eq]
@[simp] theorem beginFrame_fault (s : State) : s.beginFrame.fault = s.fault := by rw [beginFrame_eq]
@[simp] theorem beginFrame_phase (s : State) : s.beginFrame.phase = .burst (window24 s.beginFrame.mem pcStartAddr) 0 := by
  rw [beginFrame_eq]

/-- A tick either runs no frame and only answers so, or, on a running machine, advances `LFT` and opens one (R78, R80). -/
theorem tickOpen_cases (s : State) (time : Time) :
    (s.admits time = none ∧ s.tickOpen time = s.answer .idle) ∨
    (s.run = true ∧ ∃ lft, s.admits time = some lft ∧ s.tickOpen time = (s.setLft lft).beginFrame) := by
  rcases admits_cases s time with ⟨-, h⟩ | ⟨hrun, -, h⟩
  · exact .inl ⟨h, by simp only [tickOpen, h]⟩
  · exact .inr ⟨hrun, _, h, by simp only [tickOpen, h]⟩

@[simp] theorem tickOpen_keys (s : State) (time : Time) : (s.tickOpen time).keys = s.keys := by
  rcases s.tickOpen_cases time with ⟨-, h⟩ | ⟨-, lft, -, h⟩ <;> simp [h]
@[simp] theorem tickOpen_run (s : State) (time : Time) : (s.tickOpen time).run = s.run := by
  rcases s.tickOpen_cases time with ⟨-, h⟩ | ⟨-, lft, -, h⟩ <;> simp [h]
@[simp] theorem tickOpen_fault (s : State) (time : Time) : (s.tickOpen time).fault = s.fault := by
  rcases s.tickOpen_cases time with ⟨-, h⟩ | ⟨-, lft, -, h⟩ <;> simp [h]

end State

end Sys2Proof.Machine
end

section
/-! SUPPORT. The invariant (spec/10_state.md R13, R18, R19): what each operation on the state, each host operation and each
step of a frame does to it. -/

namespace Sys2Proof.Machine

theorem latchable_oob {a : Nat} (hlow : Config.addrMax < a) (hhigh : a ≤ 0x1000002) : (ErrorRecord.oob a).latchable :=
  ⟨rfl, hlow, hhigh⟩

namespace State.Inv

/-- The invariant looks at `M`, `FAULT`, `RUN` and the phase only. -/
theorem congr {s t : State} (h : s.Inv) (hmem : t.mem = s.mem) (hfault : t.fault = s.fault) (hrun : t.run = s.run)
    (hphase : t.phase = s.phase) : t.Inv where
  memory := hmem ▸ h.memory
  latch := by rw [hfault, hrun]; exact h.latch
  running := by rw [hphase, hrun]; exact h.running
  counter := hphase ▸ h.counter

theorem answer {s : State} (h : s.Inv) (r : Reply) : (s.answer r).Inv := h.congr rfl rfl rfl rfl

theorem setKeys {s : State} (h : s.Inv) (k : KeyWord) : (s.setKeys k).Inv := h.congr rfl rfl rfl rfl

theorem setLft {s : State} (h : s.Inv) (time : Time) : (s.setLft time).Inv := h.congr rfl rfl rfl rfl

/-- A canonical store, no fault latched, between frames: whatever `RUN` is. -/
theorem of_idle_fault_free {s : State} (hmem : s.mem.wf) (hfault : s.fault = none) (hphase : s.phase = .idle) :
    s.Inv where
  memory := hmem
  latch := by simp [hfault]
  running := by simp [hphase, Phase.inFrame]
  counter := by rw [hphase]; trivial

theorem setMem {s : State} (h : s.Inv) {m : Memory} (hm : m.wf) : (s.setMem m).Inv where
  memory := hm
  latch := h.latch
  running := h.running
  counter := h.counter

/-- A running machine may move to any part of the frame whose counter is in range. -/
theorem setPhase {s : State} (h : s.Inv) {p : Phase} (hrun : s.run = true) (hp : p.counted) : (s.setPhase p).Inv where
  memory := h.memory
  latch := h.latch
  running := fun _ => hrun
  counter := hp

theorem takeFault {s : State} (h : s.Inv) {e : ErrorRecord} (he : e.latchable) : (s.takeFault e).Inv where
  memory := h.memory
  latch := by rintro _ ⟨⟩; exact ⟨he, rfl⟩
  running := nofun
  counter := trivial

theorem copyAt {s : State} (h : s.Inv) (pc : Addr) : (s.copyAt pc).Inv :=
  h.setMem (storeByte_wf h.memory _ _)

theorem stop {s : State} (h : s.Inv) (hphase : s.phase = .idle) : s.stop.Inv where
  memory := h.memory
  latch := fun e he => ⟨(h.latch e he).1, rfl⟩
  running := by simp [hphase, Phase.inFrame]
  counter := h.counter

theorem start {s : State} (h : s.Inv) (hphase : s.phase = .idle) : s.start.Inv := by
  by_cases hfault : s.fault = none
  · exact of_idle_fault_free (by simpa using h.memory) (by simpa using hfault) (by simpa using hphase)
  · rw [start_faulted hfault]
    exact h.answer _

theorem loadImage {s : State} (h : s.Inv) (hphase : s.phase = .idle) (bytes : List Byte) : (s.loadImage bytes).Inv := by
  rcases Nat.lt_or_ge Config.memSize bytes.length with hlen | hlen
  · rw [loadImage_oversized hlen]
    exact h.answer _
  · rw [loadImage_fits hlen]
    exact of_idle_fault_free (Memory.wf_ofImage hlen) rfl hphase

/-- Opening a frame keeps the invariant on a running machine: the keyboard write stays inside the store (R91), and the
burst starts at count 0. -/
theorem beginFrame {s : State} (h : s.Inv) (hrun : s.run = true) : s.beginFrame.Inv := by
  have hmem : s.beginFrame.mem.wf := by
    rw [beginFrame_mem]
    exact writeKeyword_wf h.memory (writeKeyword_eq s.mem s.keys)
  have hcounted : s.beginFrame.phase.counted := by
    rw [beginFrame_phase]
    exact Nat.zero_lt_succ _
  exact ((h.setMem hmem).setPhase hrun hcounted).congr rfl (by simp) (by simp) rfl

theorem tickOpen {s : State} (h : s.Inv) (time : Time) : (s.tickOpen time).Inv := by
  rcases s.tickOpen_cases time with ⟨-, htick⟩ | ⟨hrun, lft, -, htick⟩
  · rw [htick]
    exact h.answer _
  · rw [htick]
    exact (h.setLft lft).beginFrame hrun

/-- Every host operation keeps the invariant of a machine between frames. -/
theorem apply {s : State} (h : s.Inv) (hphase : s.phase = .idle) (op : HostOp) : (op.apply s).Inv := by
  cases op with
  | reset => exact of_idle_fault_free Memory.wf_nil rfl rfl
  | loadImage bytes => exact h.loadImage hphase bytes
  | keyPress k => exact (h.setKeys _).answer _
  | keyRelease k => exact (h.setKeys _).answer _
  | start => exact h.start hphase
  | stop => exact h.stop hphase
  | tick time => exact h.tickOpen time
  | isRunning => exact h.answer _
  | inspect => exact h.answer _
  | readFault => exact h.answer _

/-- Every step of a frame in progress keeps the invariant: the address arguments it can raise for are at most
`0xFFFFFC + 6`, `0xFFFFFF + 3` and `0x1000000`. -/
theorem frameStep {s t : State} (h : s.Inv) (hst : FrameStep s t) : t.Inv := by
  have hrun : s.run = true := h.running hst.inFrame
  cases hst with
  | @jumps pc n hphase hpc => exact (h.copyAt pc).setPhase hrun (Phase.afterInstruction_counted _ n)
  | @faultsAfterCopy pc n hphase hcopy hpc =>
    have hhigh : pc.toNat + 6 ≤ 0x1000002 := by simp only [Config.addrMax] at hcopy; omega
    exact (h.copyAt pc).takeFault (latchable_oob hpc hhigh)
  | @faultsBeforeCopy pc n hphase hpc =>
    have hhigh : pc.toNat + 3 ≤ 0x1000002 := by have := pc.isLt; omega
    exact h.takeFault (latchable_oob hpc hhigh)
  | emits hphase haudio => exact (h.setPhase (p := .idle) hrun trivial).answer _
  | audioFaults hphase haudio => exact h.takeFault (latchable_oob (by decide) (by decide))

theorem stepsTo {s t : State} (h : s.Inv) (hst : StepsTo s t) : t.Inv := by
  cases hst with
  | waits => exact h
  | @hostOp op rest hawaits =>
    have hpending : ({ s with pending := rest } : State).Inv := h.congr rfl rfl rfl rfl
    exact hpending.apply hawaits.1 op
  | frame hframe => exact h.frameStep hframe

end State.Inv

end Sys2Proof.Machine
end

section
/-! SUPPORT. What can change the headroom (spec/10_state.md R13, R22) and each of the block's registers (R15 to R18). -/

namespace Sys2Proof.Machine

/-! ### The headroom -/

theorem byteAt_storeAt_headroom (m : Memory) {a i : Nat} (v : Byte) (ha : a ≤ Config.addrMax) (hi : 0x1000000 ≤ i) :
    (m.storeAt a v).byteAt i = m.byteAt i := by
  have hne : i ≠ a := by simp only [Config.addrMax] at ha; omega
  rw [Memory.byteAt_storeAt, if_neg hne]

/-- Only a reset and an image load reach the headroom; the keyboard write of a tick is at 0 and 1 (R91). -/
theorem apply_headroom {op : HostOp} (s : State) (hreset : op ≠ .reset) (himage : ∀ bytes, op ≠ .loadImage bytes)
    {i : Nat} (hi : 0x1000000 ≤ i) : (op.apply s).mem.byteAt i = s.mem.byteAt i := by
  cases op with
  | reset => exact absurd rfl hreset
  | loadImage bytes => exact absurd rfl (himage bytes)
  | tick time =>
    show (s.tickOpen time).mem.byteAt i = s.mem.byteAt i
    rcases s.tickOpen_cases time with ⟨-, h⟩ | ⟨-, lft, -, h⟩
    · rw [h, State.answer_mem]
    · rw [h, State.beginFrame_mem, byteAt_storeAt_headroom _ _ (by decide) hi,
        byteAt_storeAt_headroom _ _ (by decide) hi, State.setLft_mem]
  | start => simp [HostOp.apply]
  | keyPress | keyRelease | stop | isRunning | inspect | readFault => rfl

/-- An instruction stores at a 24-bit address, below the headroom; the decoders store nothing. -/
theorem FrameStep.headroom {s t : State} (h : FrameStep s t) {i : Nat} (hi : 0x1000000 ≤ i) :
    t.mem.byteAt i = s.mem.byteAt i := by
  cases h with
  | jumps | faultsAfterCopy => exact byteAt_storeAt_headroom _ _ (addr_le _) hi
  | faultsBeforeCopy | emits | audioFaults => rfl

/-! ### The block's registers, in a frame -/

/-- What a step of a frame in progress does to the registers outside the store: nothing, unless it faults (R12, R112). -/
structure FrameKeeps (s t : State) : Prop where
  keys : t.keys = s.keys
  lft : t.lft = s.lft
  pending : t.pending = s.pending
  latch : (t.run = s.run ∧ t.fault = s.fault) ∨ (t.run = false ∧ t.fault ≠ none)

theorem FrameStep.keeps {s t : State} (h : FrameStep s t) : FrameKeeps s t := by
  cases h with
  | jumps | emits => exact ⟨rfl, rfl, rfl, .inl ⟨rfl, rfl⟩⟩
  | faultsAfterCopy | faultsBeforeCopy | audioFaults => exact ⟨rfl, rfl, rfl, .inr ⟨rfl, nofun⟩⟩

/-! ### The block's registers, between frames -/

theorem keys_apply_ne {op : HostOp} {s : State} (h : (op.apply s).keys ≠ s.keys) :
    op = .reset ∨ ∃ k, op = .keyPress k ∨ op = .keyRelease k := by
  cases op with
  | reset => exact .inl rfl
  | keyPress k => exact .inr ⟨k, .inl rfl⟩
  | keyRelease k => exact .inr ⟨k, .inr rfl⟩
  | loadImage | start | stop | tick | isRunning | inspect | readFault => simp [HostOp.apply] at h

theorem lft_apply_ne {op : HostOp} {s : State} (h : (op.apply s).lft ≠ s.lft) :
    op = .reset ∨ ∃ time, op = .tick time := by
  cases op with
  | reset => exact .inl rfl
  | tick time => exact .inr ⟨time, rfl⟩
  | loadImage | keyPress | keyRelease | start | stop | isRunning | inspect | readFault => simp [HostOp.apply] at h

theorem run_apply_set {op : HostOp} {s : State} (hs : s.run = false) (h : (op.apply s).run = true) :
    op = .start ∧ s.fault = none := by
  cases op with
  | start =>
    refine ⟨rfl, ?_⟩
    by_contra hfault
    simp [HostOp.apply, State.start_faulted hfault, hs] at h
  | reset | loadImage | keyPress | keyRelease | stop | tick | isRunning | inspect | readFault =>
    simp [HostOp.apply, hs] at h

theorem run_apply_cleared {op : HostOp} {s : State} (hs : s.run = true) (h : (op.apply s).run = false) :
    op = .stop ∨ op = .reset := by
  cases op with
  | stop => exact .inl rfl
  | reset => exact .inr rfl
  | start =>
    by_cases hfault : s.fault = none
    · simp [HostOp.apply, State.start_fault_free hfault] at h
    · simp [HostOp.apply, State.start_faulted hfault, hs] at h
  | loadImage | keyPress | keyRelease | tick | isRunning | inspect | readFault => simp [HostOp.apply, hs] at h

theorem fault_apply_lost {op : HostOp} {s : State} (hs : s.fault ≠ none) (h : (op.apply s).fault = none) :
    op = .reset ∨ ∃ bytes, op = .loadImage bytes ∧ bytes.length ≤ Config.memSize := by
  cases op with
  | reset => exact .inl rfl
  | loadImage bytes =>
    refine .inr ⟨bytes, rfl, ?_⟩
    by_contra hlen
    simp [HostOp.apply, State.loadImage_oversized (Nat.not_le.mp hlen), hs] at h
  | keyPress | keyRelease | start | stop | tick | isRunning | inspect | readFault => simp [HostOp.apply, hs] at h

/-! ### The block's registers, at any step -/

theorem StepsTo.keys_ne {s t : State} (hst : StepsTo s t) (h : t.keys ≠ s.keys) :
    ∃ op rest, s.awaits op rest ∧ (op = .reset ∨ ∃ k, op = .keyPress k ∨ op = .keyRelease k) := by
  cases hst with
  | waits => exact absurd rfl h
  | @hostOp op rest hawaits => exact ⟨op, rest, hawaits, keys_apply_ne h⟩
  | frame hframe => exact absurd hframe.keeps.keys h

theorem StepsTo.lft_ne {s t : State} (hst : StepsTo s t) (h : t.lft ≠ s.lft) :
    ∃ op rest, s.awaits op rest ∧ (op = .reset ∨ ∃ time, op = .tick time) := by
  cases hst with
  | waits => exact absurd rfl h
  | @hostOp op rest hawaits => exact ⟨op, rest, hawaits, lft_apply_ne h⟩
  | frame hframe => exact absurd hframe.keeps.lft h

theorem StepsTo.run_set {s t : State} (hst : StepsTo s t) (hs : s.run = false) (ht : t.run = true) :
    ∃ rest, s.awaits .start rest ∧ s.fault = none := by
  cases hst with
  | waits => simp [hs] at ht
  | @hostOp op rest hawaits =>
    obtain ⟨rfl, hfault⟩ := run_apply_set (s := { s with pending := rest }) hs ht
    exact ⟨rest, hawaits, hfault⟩
  | frame hframe =>
    rcases hframe.keeps.latch with ⟨hrun, -⟩ | ⟨hrun, -⟩
    · simp [hrun, hs] at ht
    · simp [hrun] at ht

theorem StepsTo.run_cleared {s t : State} (hst : StepsTo s t) (hs : s.run = true) (ht : t.run = false) :
    (∃ op rest, s.awaits op rest ∧ (op = .stop ∨ op = .reset)) ∨ (s.phase.inFrame = true ∧ t.fault ≠ none) := by
  cases hst with
  | waits => simp [hs] at ht
  | @hostOp op rest hawaits => exact .inl ⟨op, rest, hawaits, run_apply_cleared (s := { s with pending := rest }) hs ht⟩
  | frame hframe =>
    rcases hframe.keeps.latch with ⟨hrun, -⟩ | ⟨-, hfault⟩
    · simp [hrun, hs] at ht
    · exact .inr ⟨hframe.inFrame, hfault⟩

theorem StepsTo.fault_lost {s t : State} (hst : StepsTo s t) (hs : s.fault ≠ none) (ht : t.fault = none) :
    ∃ op rest, s.awaits op rest ∧ (op = .reset ∨ ∃ bytes, op = .loadImage bytes ∧ bytes.length ≤ Config.memSize) := by
  cases hst with
  | waits => exact absurd ht hs
  | @hostOp op rest hawaits => exact ⟨op, rest, hawaits, fault_apply_lost (s := { s with pending := rest }) hs ht⟩
  | frame hframe =>
    rcases hframe.keeps.latch with ⟨-, hfault⟩ | ⟨-, hfault⟩
    · exact absurd (hfault ▸ ht) hs
    · exact absurd ht hfault

theorem State.awaits.head?_eq {s : State} {op : HostOp} {rest : List HostOp} (h : s.awaits op rest) :
    s.pending.head? = some op := by
  rw [h.2]; rfl

end Sys2Proof.Machine
end

section
/-! The statements about the state (spec/10_state.md), settled. -/

namespace Sys2Proof.Proofs

open Sys2Proof.Machine

/-- Settles O43, by `StepsTo`, which says everything a step can do, and `State.Inv.stepsTo`. -/
theorem everyStepKeepsTheInvariant : Obligations.EveryStepKeepsTheInvariant :=
  fun _ _ hinv hstep => hinv.stepsTo (stepsTo_of_step hstep)

/-- Settles O45: an instruction stores at a 24-bit address, and the keyboard write is at 0 and 1. -/
theorem headroomChangesOnlyByResetOrImage : Obligations.HeadroomChangesOnlyByResetOrImage := by
  intro s t hstep hop i hi
  cases stepsTo_of_step hstep with
  | waits => rfl
  | @hostOp op rest hawaits =>
    obtain ⟨hreset, himage⟩ := hop hawaits.1
    simp only [hawaits.head?_eq, ne_eq, Option.some.injEq] at hreset himage
    exact apply_headroom { s with pending := rest } hreset himage hi
  | frame hframe => exact hframe.headroom hi

/-- Settles O49, a register at a time. -/
theorem registersChangeOnlyByTheirOperations : Obligations.RegistersChangeOnlyByTheirOperations := by
  intro s t hstep
  have hst := stepsTo_of_step hstep
  refine ⟨fun h => ?keys, fun h => ?lft, fun hs ht => ?set, fun hs ht => ?cleared, fun hs ht => ?lost⟩
  case keys =>
    obtain ⟨op, rest, hawaits, hop⟩ := hst.keys_ne h
    exact ⟨hawaits.1, by simpa [hawaits.head?_eq] using hop⟩
  case lft =>
    obtain ⟨op, rest, hawaits, hop⟩ := hst.lft_ne h
    exact ⟨hawaits.1, by simpa [hawaits.head?_eq] using hop⟩
  case set =>
    obtain ⟨rest, hawaits, hfault⟩ := hst.run_set hs ht
    exact ⟨hawaits.1, hawaits.head?_eq, hfault⟩
  case cleared =>
    rcases hst.run_cleared hs ht with ⟨op, rest, hawaits, hop⟩ | hframe
    · exact .inl ⟨hawaits.1, by simpa [hawaits.head?_eq] using hop⟩
    · exact .inr hframe
  case lost =>
    obtain ⟨op, rest, hawaits, hop⟩ := hst.fault_lost hs ht
    exact ⟨hawaits.1, by simpa [hawaits.head?_eq, Config.memSize] using hop⟩

/-- Settles O13: neither part of a frame outside the burst has a `pc`. -/
theorem noInstructionOutsideABurst : Obligations.NoInstructionOutsideABurst := by
  rintro s a b c (hphase | hphase)
  · exact execBbj_outside_burst (by simp [hphase]) a b c
  · exact execBbj_outside_burst (by simp [hphase]) a b c

/-- Settles O36: the reset values stand in `State.reset`, and a step between frames performs the waiting `Reset`. -/
theorem resetLeavesTheResetValues : Obligations.ResetLeavesTheResetValues := by
  refine ⟨fun _ => rfl, rfl, rfl, rfl, rfl, rfl, fun s rest hawaits => ?_⟩
  rw [step_idle hawaits.1, hostStep_cons hawaits.2]
  rfl

/-- Settles O42: the store after reset is empty, nothing is latched and no frame is in progress. -/
theorem resetMeetsTheInvariant : Obligations.ResetMeetsTheInvariant :=
  State.Inv.of_idle_fault_free Memory.wf_nil rfl rfl

end Sys2Proof.Proofs
end

section
/-! SUPPORT. The access primitives in numbers (spec/20_memory.md R31 to R36): big-endian values of bytes, and what the 4-byte
read answers. -/

namespace Sys2Proof.Machine

/-! ### Big-endian values -/

/-- A byte appended is the low digit in base 256 (R31). -/
theorem toNat_append_byte {n : Nat} (x : BitVec n) (y : Byte) : (x ++ y).toNat = x.toNat * 256 + y.toNat := by
  rw [BitVec.toNat_append, ← Nat.shiftLeft_add_eq_or_of_lt y.isLt, Nat.shiftLeft_eq]

theorem addrOfBytes_toNat (hi mid lo : Byte) :
    (addrOfBytes hi mid lo).toNat = hi.toNat * 65536 + mid.toNat * 256 + lo.toNat := by
  rw [addrOfBytes, toNat_append_byte, toNat_append_byte]
  omega

theorem window24_toNat (m : Memory) (a : Nat) : (window24 m a).toNat =
    (m.byteAt a).toNat * 65536 + (m.byteAt (a + 1)).toNat * 256 + (m.byteAt (a + 2)).toNat := by
  rw [window24_eq, addrOfBytes_toNat]

theorem window32_toNat (m : Memory) (a : Nat) : (window32 m a).toNat =
    (m.byteAt a).toNat * 16777216 + (m.byteAt (a + 1)).toNat * 65536 + (m.byteAt (a + 2)).toNat * 256 +
      (m.byteAt (a + 3)).toNat := by
  rw [window32, toNat_append_byte, toNat_append_byte, toNat_append_byte]
  omega

theorem highByte_toNat (v : BitVec 16) : (v.extractLsb' 8 8).toNat = v.toNat / 256 := by
  rw [BitVec.extractLsb'_toNat, Nat.shiftRight_eq_div_pow]
  have := v.isLt
  omega

theorem lowByte_toNat (v : BitVec 16) : (v.extractLsb' 0 8).toNat = v.toNat % 256 := by
  rw [BitVec.extractLsb'_toNat, Nat.shiftRight_zero]

/-! ### The 4-byte read and the 3-byte window -/

theorem memRead4_ok (m : Memory) {a : Nat} (h : a ≤ Config.addrMax) : memRead4 m a = .ok (window32 m a) := by
  simp [memRead4, check_ok h]

theorem memRead4_error (m : Memory) {a : Nat} (h : Config.addrMax < a) : memRead4 m a = .error (.oob a) := by
  simp [memRead4, check_error h]

/-- A store outside the three bytes of a 24-bit window leaves its value (R35). -/
theorem window24_storeAt_outside (m : Memory) {a i : Nat} (v : Byte) (h : i < a ∨ a + 3 ≤ i) :
    window24 (m.storeAt i v) a = window24 m a := by
  have h0 : a ≠ i := by omega
  have h1 : a + 1 ≠ i := by omega
  have h2 : a + 2 ≠ i := by omega
  simp [window24_eq, h0, h1, h2]

/-- A store changes no other byte (R32). -/
theorem sameBytesExcept_storeAt (m : Memory) (i : Nat) (v : Byte) : sameBytesExcept (· = i) m (m.storeAt i v) :=
  fun j hj => by rw [Memory.byteAt_storeAt, if_neg hj]

end Sys2Proof.Machine
end

section
/-! SUPPORT. An instruction that completes, as one step, and the bytes of a fetch (spec/40_bytebytejump.md R61,
20_memory.md R45). -/

namespace Sys2Proof.Machine

/-- The step of an instruction standing where `pc + 6` is legal: the copy, then the jump (R61, R62). -/
theorem step_jumps {s : State} {pc : Addr} {n : Nat} (hphase : s.phase = .burst pc n)
    (hpc : pc.toNat + 6 ≤ Config.addrMax) : step s =
    .next ((s.copyAt pc).setPhase (Phase.afterInstruction (window24 (s.copyAt pc).mem (pc.toNat + 6)) n)) := by
  rw [step_of_execBbj hphase (execBbj_jumps hphase hpc _ _ _), jumpTarget_window24]
  exact congrArg _ (countIteration_burst rfl)

theorem Phase.afterInstruction_burst {n : Nat} (pc : Addr) (h : n + 1 < Config.burstLen) :
    Phase.afterInstruction pc n = .burst pc (n + 1) :=
  if_pos h

theorem fetch_eq_map (m : Memory) (pc : Addr) : fetch m pc = (List.range 9).map (fun k => m.byteAt (pc.toNat + k)) := rfl

/-- Byte `k` of an instruction is the byte of the store at `pc + k` (R50). -/
theorem fetch_getElem? (m : Memory) (pc : Addr) {k : Nat} (h : k < 9) :
    (fetch m pc)[k]? = some (m.byteAt (pc.toNat + k)) := by
  rw [fetch_eq_map, List.getElem?_map, List.getElem?_range h, Option.map_some]

end Sys2Proof.Machine
end

section
/-! SUPPORT. The steps of a frame make up the spec's atomic frame (spec/20_memory.md R47; 40_bytebytejump.md R61, R64;
41_host_operations.md R78, R80; log 6): a commuting lemma per instruction, an induction over the burst, then the tick. -/

namespace Sys2Proof.Machine

/-! ### One instruction -/

theorem bbjAt_jumps (s : State) {pc : Addr} (hpc : pc.toNat + 6 ≤ Config.addrMax) :
    bbjAt s.mem pc = ((s.copyAt pc).mem, .ok (window24 (s.copyAt pc).mem (pc.toNat + 6))) := by
  have hcopy : pc.toNat + 3 ≤ Config.addrMax := by omega
  simp only [bbjAt, copyByte_ok s.mem (addr_le pc) hcopy, read24_ok _ hpc, State.copyAt_mem]

theorem bbjAt_faults_after_copy (s : State) {pc : Addr} (hcopy : pc.toNat + 3 ≤ Config.addrMax)
    (hpc : Config.addrMax < pc.toNat + 6) :
    bbjAt s.mem pc = ((s.copyAt pc).mem, .error (.oob (pc.toNat + 6))) := by
  simp only [bbjAt, copyByte_ok s.mem (addr_le pc) hcopy, read24_error _ hpc, State.copyAt_mem]

theorem bbjAt_faults_before_copy (m : Memory) {pc : Addr} (hpc : Config.addrMax < pc.toNat + 3) :
    bbjAt m pc = (m, .error (.oob (pc.toNat + 3))) := by
  simp only [bbjAt, copyByte_dest_error m (addr_le pc) hpc]

/-- The step in a burst does what R61's pseudocode does: it completes where `bbjAt` does, and takes what `bbjAt` raises. -/
theorem step_bbjAt {s : State} {pc : Addr} {n : Nat} (hphase : s.phase = .burst pc n) :
    (∃ m pc', bbjAt s.mem pc = (m, .ok pc') ∧
      step s = .next ((s.setMem m).setPhase (Phase.afterInstruction pc' n))) ∨
    (∃ m e, bbjAt s.mem pc = (m, .error e) ∧ step s = .next ((s.setMem m).takeFault e)) := by
  obtain ⟨t, hstep, ht⟩ := step_frameStep_of_burst hphase
  cases ht with
  | jumps hphase' hpc =>
    cases hphase.symm.trans hphase'
    exact .inl ⟨_, _, bbjAt_jumps s hpc, hstep⟩
  | faultsAfterCopy hphase' hcopy hpc =>
    cases hphase.symm.trans hphase'
    exact .inr ⟨_, _, bbjAt_faults_after_copy s hcopy hpc, hstep⟩
  | faultsBeforeCopy hphase' hpc =>
    cases hphase.symm.trans hphase'
    exact .inr ⟨_, _, bbjAt_faults_before_copy s.mem hpc, hstep⟩
  | emits hphase' => cases hphase.symm.trans hphase'
  | audioFaults hphase' => cases hphase.symm.trans hphase'

/-! ### Runs inside a frame -/

/-- `k` steps from `s` to `t`, a frame in progress before each. -/
inductive FrameRun : Nat → State → State → Prop where
  | refl (s : State) : FrameRun 0 s s
  | step {k : Nat} {s t u : State} (hframe : s.phase.inFrame = true) (hstep : step s = .next t) (hrun : FrameRun k t u) :
      FrameRun (k + 1) s u

theorem FrameRun.single {s t : State} (hframe : s.phase.inFrame = true) (hstep : Machine.step s = .next t) :
    FrameRun 1 s t :=
  .step hframe hstep (.refl t)

theorem FrameRun.run {k : Nat} {s t : State} (h : FrameRun k s t) : Host.Core.run Sys2Proof.core k s = .next t := by
  induction h with
  | refl s => exact run_zero s
  | step _ hstep _ ih => rw [run_succ _ hstep, ih]

/-- A step inside a frame leaves the host's queue as it is (R71). -/
theorem step_pending {s t : State} (hframe : s.phase.inFrame = true) (hstep : step s = .next t) :
    t.pending = s.pending := by
  cases stepsTo_of_step hstep with
  | waits => rfl
  | hostOp hawaits => simp [hawaits.1, Phase.inFrame] at hframe
  | frame h => exact h.keeps.pending

/-- Before the end of a run inside a frame, the frame is in progress and the host's queue waits. -/
theorem FrameRun.before {k : Nat} {s t : State} (h : FrameRun k s t) {j : Nat} (hj : j < k) :
    ∃ u, Host.Core.run Sys2Proof.core j s = .next u ∧ u.phase.inFrame = true ∧ u.pending = s.pending := by
  induction h generalizing j with
  | refl => exact absurd hj (Nat.not_lt_zero j)
  | @step k s t u hframe hstep _ ih =>
    cases j with
    | zero => exact ⟨s, run_zero s, hframe, rfl⟩
    | succ j =>
      obtain ⟨w, hrun, hw, hpending⟩ := ih (Nat.lt_of_succ_lt_succ hj)
      exact ⟨w, by rw [run_succ j hstep, hrun], hw, hpending.trans (step_pending hframe hstep)⟩

/-! ### The burst and the close of the frame -/

/-- What a frame leaves whose burst ended with this store, and with a `pc` or with a raise (R80, R81). -/
def State.afterBurst (s : State) : Memory × Except ErrorRecord Addr → State
  | (m, .error e) => (s.setMem m).takeFault e
  | (m, .ok _) => (s.setMem m).finishFrame

@[simp] theorem State.afterBurst_error (s : State) (m : Memory) (e : ErrorRecord) :
    s.afterBurst (m, .error e) = (s.setMem m).takeFault e := rfl
@[simp] theorem State.afterBurst_ok (s : State) (m : Memory) (pc : Addr) :
    s.afterBurst (m, .ok pc) = (s.setMem m).finishFrame := rfl

/-- The end of a frame replaces the store, the phase and the reply, so it does not depend on them. -/
theorem State.afterBurst_update (s : State) (m : Memory) (p : Phase) (reply : Option Reply)
    (r : Memory × Except ErrorRecord Addr) :
    ({ s with mem := m, phase := p, reply := reply } : State).afterBurst r = s.afterBurst r := by
  rcases r with ⟨m', e | pc⟩
  · rfl
  · rw [afterBurst_ok, afterBurst_ok]
    unfold finishFrame
    cases h : audioDecode m' <;> simp only [setMem_mem, h] <;> rfl

@[simp] theorem State.finishFrame_phase (s : State) : s.finishFrame.phase = .idle := by
  rcases finishFrame_cases s with ⟨audio, -, h⟩ | ⟨-, h⟩ <;> rw [h] <;> rfl

theorem State.afterBurst_phase (s : State) (r : Memory × Except ErrorRecord Addr) : (s.afterBurst r).phase = .idle := by
  rcases r with ⟨m, e | pc⟩ <;> simp

/-- From `pc`, with `k` instructions of the burst to go, the steps lead to the end of the frame: an instruction a step, and
one step that closes it (R64, R80). -/
theorem frameRun_afterBurst (k : Nat) {s : State} {pc : Addr} {n : Nat} (hn : n + k = Config.burstLen)
    (hphase : s.phase = if n < Config.burstLen then .burst pc n else .decode) :
    ∃ j ≤ k + 1, FrameRun j s (s.afterBurst (burstLoop k s.mem pc)) := by
  induction k generalizing s pc n with
  | zero =>
    have hdecode : s.phase = .decode := by rw [hphase, if_neg (by omega)]
    exact ⟨1, le_rfl, .single (by rw [hdecode]; rfl) (step_decode hdecode)⟩
  | succ k ih =>
    have hburst : s.phase = .burst pc n := by rw [hphase, if_pos (by omega)]
    have hframe : s.phase.inFrame = true := by rw [hburst]; rfl
    rw [burstLoop]
    rcases step_bbjAt hburst with ⟨m, pc', hbbj, hstep⟩ | ⟨m, e, hbbj, hstep⟩
    · obtain ⟨j, hj, hrun⟩ := ih (s := (s.setMem m).setPhase (Phase.afterInstruction pc' n)) (n := n + 1) (by omega) rfl
      have hend := s.afterBurst_update m (Phase.afterInstruction pc' n) s.reply (burstLoop k m pc')
      rw [hbbj, ← hend]
      exact ⟨j + 1, by omega, .step hframe hstep hrun⟩
    · rw [hbbj]
      exact ⟨1, by omega, .single hframe hstep⟩

/-! ### The frame and the operation -/

theorem pcStartAddr_le : pcStartAddr ≤ Config.addrMax := by decide

theorem burst_eq (m : Memory) : burst m = burstLoop Config.burstLen m (window24 m pcStartAddr) := by
  simp only [burst, read24_ok m pcStartAddr_le]

/-- The atomic frame is its opening followed by the burst and the close (R80). -/
theorem State.frame_eq (s : State) : s.frame = s.beginFrame.afterBurst (burst s.beginFrame.mem) := by
  rw [beginFrame_eq]
  dsimp only
  rw [afterBurst_update]
  simp only [frame, writeKeyword_eq]
  generalize burst _ = r
  rcases r with ⟨m, e | pc⟩ <;> rfl

theorem beginFrame_frameRun (s : State) : ∃ j ≤ Config.burstLen + 1, FrameRun j s.beginFrame s.frame := by
  rw [s.frame_eq, burst_eq]
  exact frameRun_afterBurst _ (Nat.zero_add _) s.beginFrame_phase

/-- An operation's first step opens it; where that opens a frame, the frame's own steps lead to what the one transition
gives, and otherwise the operation is done (R71). -/
theorem HostOp.apply_frameRun (op : HostOp) (s : State) :
    ∃ j ≤ Config.burstLen + 1, FrameRun j (op.apply s) (op.perform s) := by
  cases op with
  | tick time =>
    show ∃ j ≤ Config.burstLen + 1, FrameRun j (s.tickOpen time) (s.tick time)
    rcases s.tickOpen_cases time with ⟨hadmits, hopen⟩ | ⟨-, lft, hadmits, hopen⟩
    · simp only [hopen, State.tick, hadmits]
      exact ⟨0, Nat.zero_le _, .refl _⟩
    · simp only [hopen, State.tick, hadmits]
      exact beginFrame_frameRun _
  | reset | loadImage | keyPress | keyRelease | start | stop | isRunning | inspect | readFault =>
    exact ⟨0, Nat.zero_le _, .refl _⟩

theorem State.frame_phase (s : State) : s.frame.phase = .idle := by
  rw [s.frame_eq, afterBurst_phase]

theorem HostOp.perform_phase (op : HostOp) {s : State} (h : s.phase = .idle) : (op.perform s).phase = .idle := by
  cases op with
  | tick time =>
    show (s.tick time).phase = .idle
    unfold State.tick
    cases s.admits time with
    | none => exact h
    | some lft => exact State.frame_phase _
  | reset => rfl
  | loadImage | keyPress | keyRelease | start | stop | isRunning | inspect | readFault =>
    simpa [HostOp.perform, HostOp.apply] using h

@[simp] theorem State.loadImage_pending (s : State) (bytes : List Byte) : (s.loadImage bytes).pending = s.pending := by
  unfold loadImage; split <;> rfl
@[simp] theorem State.start_pending (s : State) : s.start.pending = s.pending := by unfold start; split <;> rfl
@[simp] theorem State.stop_pending (s : State) : s.stop.pending = s.pending := rfl
@[simp] theorem State.beginFrame_pending (s : State) : s.beginFrame.pending = s.pending := by rw [beginFrame_eq]
@[simp] theorem State.tickOpen_pending (s : State) (time : Time) : (s.tickOpen time).pending = s.pending := by
  rcases s.tickOpen_cases time with ⟨-, h⟩ | ⟨-, lft, -, h⟩ <;> simp [h]

/-- No operation touches the operations that wait behind it (R71). -/
theorem HostOp.apply_pending (op : HostOp) (s : State) : (op.apply s).pending = s.pending := by
  cases op with
  | reset | loadImage | keyPress | keyRelease | start | stop | tick | isRunning | inspect | readFault =>
    simp [HostOp.apply]

end Sys2Proof.Machine
end

section
/-! The statements about memory access and ordering (spec/20_memory.md), settled. -/

namespace Sys2Proof.Proofs

open Sys2Proof.Machine

/-- Settles O6: above the bound each primitive's own check raises; below it none has another way to fail. -/
theorem primitivesCheckOnlyTheirAddressArgument : Obligations.PrimitivesCheckOnlyTheirAddressArgument := by
  refine fun m a d v w => ⟨fun ha => ?raises, fun ha => ?answers⟩
  case raises =>
    exact ⟨memRead1_error m ha, memWrite1_error m ha v, memRead4_error m ha, read24_error m ha, memWrite2_error m ha w,
      fun hd => ⟨copyByte_source_error m d ha, copyByte_dest_error m hd ha⟩⟩
  case answers =>
    exact ⟨⟨_, memRead1_ok m ha⟩, ⟨_, memWrite1_ok m ha v⟩, ⟨_, memRead4_ok m ha⟩, ⟨_, read24_ok m ha⟩,
      ⟨_, memWrite2_ok m ha w⟩, fun hd => ⟨_, copyByte_ok m ha hd⟩⟩

/-- Settles O7: the write is `storeAt`, whose read-after-write law says the rest. -/
theorem byteWrittenIsReadBack : Obligations.ByteWrittenIsReadBack := by
  refine fun m a v => ⟨fun ha => ⟨memRead1_error m ha, memWrite1_error m ha v⟩, fun ha => ⟨memRead1_ok m ha, ?_⟩⟩
  have hback : memRead1 (m.storeAt a v) a = .ok v := by rw [memRead1_ok _ ha, Memory.byteAt_storeAt, if_pos rfl]
  exact ⟨_, memWrite1_ok m ha v, hback, sameBytesExcept_storeAt m a v, fun i hi => byteAt_storeAt_headroom m v ha hi⟩

/-- Settles O8: both reads are windows of the store, and a window of three bytes does not see the fourth. -/
theorem read24IsThreeBytesBigEndian : Obligations.Read24IsThreeBytesBigEndian := by
  refine fun m a => ⟨fun ha => ⟨memRead4_error m ha, read24_error m ha⟩, fun ha => ?_⟩
  refine ⟨⟨_, memRead4_ok m ha, window32_toNat m a⟩, ⟨_, read24_ok m ha, window24_toNat m a⟩, fun v => ?_⟩
  rw [read24_ok _ ha, read24_ok _ ha, window24_storeAt_outside m v (.inr le_rfl)]

/-- Settles O9: the two stores are of `v`'s high and low byte, and the window at `a` sees both. -/
theorem writeUint16IsTwoBytesBigEndian : Obligations.WriteUint16IsTwoBytesBigEndian := by
  intro m a v ha
  refine ⟨_, memWrite2_ok m ha v, ?high, ?low, ?frame, fun ha' => ⟨memRead1_ok _ ha, memRead1_ok _ ha'⟩,
    _, read24_ok _ ha, ?window⟩
  case high => rw [Memory.byteAt_storeAt, if_neg (by omega), Memory.byteAt_storeAt, if_pos rfl, highByte_toNat]
  case low => rw [Memory.byteAt_storeAt, if_pos rfl, lowByte_toNat]
  case frame =>
    intro i hi
    obtain ⟨h0, h1⟩ := not_or.mp hi
    rw [Memory.byteAt_storeAt, if_neg h1, Memory.byteAt_storeAt, if_neg h0]
  case window =>
    simp only [window24_toNat, Memory.byteAt_storeAt, if_pos, if_neg (show a ≠ a + 1 by omega),
      if_neg (show a + 2 ≠ a + 1 by omega), if_neg (show a + 2 ≠ a by omega), highByte_toNat, lowByte_toNat]
    omega

/-- Settles O10: with legal raw addresses the copy is one `storeAt` at the resolved destination. -/
theorem copyByteMovesOneResolvedByte : Obligations.CopyByteMovesOneResolvedByte := by
  refine fun m s d => ⟨fun hs hd => ?_, copyByte_source_error m d, copyByte_dest_error m⟩
  refine ⟨_, _, _, _, read24_ok m hs, read24_ok m hd, memRead1_ok m (addr_le _), copyByte_ok m hs hd,
    memWrite1_ok m (addr_le _) _, ?moved, sameBytesExcept_storeAt m _ _, ?same⟩
  case moved => rw [Memory.byteAt_storeAt, if_pos rfl]
  case same =>
    intro hm hab
    rw [hab, Memory.storeAt_byteAt_self hm (addr_lt_memSize _)]

/-- Settles O16: the step stores one byte and jumps through the window at `pc + 6` of the store it leaves; a fetch reads the
store's bytes, so it sees that one. -/
theorem storesAreSeenByLaterFetches : Obligations.StoresAreSeenByLaterFetches := by
  intro s a b c pc n hphase hn hpc hdecode
  have hlegal : pc.toNat + 6 ≤ Config.addrMax := by simp only [Config.addrMax]; omega
  obtain ⟨rfl, rfl, rfl⟩ : window24 s.mem pc.toNat = a ∧ window24 s.mem (pc.toNat + 3) = b ∧
      window24 s.mem (pc.toNat + 6) = c := by simpa [decode_fetch] using hdecode
  refine ⟨_, _, step_jumps hphase hlegal, Phase.afterInstruction_burst _ hn, ?stored, ⟨_, read24_ok _ hlegal, rfl⟩, ?fetched⟩
  case stored => simp
  case fetched =>
    intro q k hk
    rw [fetch_getElem? _ q hk, fetch_getElem? _ q hk, State.setPhase_mem, State.copyAt_mem, Memory.byteAt_storeAt]
    split <;> rfl

/-- Settles O25: one step opens the operation, and `HostOp.apply_frameRun` leads from there, inside the frame, to what its
one transition gives. -/
theorem stepsMakeUpTheAtomicOperation : Obligations.StepsMakeUpTheAtomicOperation := by
  intro s op rest hawaits
  have hopen : step s = .next (op.apply { s with pending := rest }) := by
    rw [step_idle hawaits.1, hostStep_cons hawaits.2]
  obtain ⟨j, hj, hrun⟩ := op.apply_frameRun { s with pending := rest }
  have hbound : j + 1 ≤ 65538 := by simp only [Config.burstLen] at hj; omega
  refine ⟨j + 1, by omega, hbound, by rw [run_succ j hopen, hrun.run], op.perform_phase hawaits.1, fun i hi hij => ?_⟩
  obtain ⟨i, rfl⟩ : ∃ i', i = i' + 1 := ⟨i - 1, by omega⟩
  obtain ⟨u, hu, hframe, hpending⟩ := hrun.before (Nat.lt_of_succ_lt_succ hij)
  exact ⟨u, by rw [run_succ i hopen, hu], hframe, by rw [hpending, op.apply_pending]⟩

end Sys2Proof.Proofs
end

section
/-! SUPPORT. The decoder and the encoder undo each other (spec/30_encoding.md R50 to R54). -/

namespace Sys2Proof

open Sys2Proof.Machine

/-! ### Round trips -/

/-- The bytes of a value made of three bytes are those three (R51). -/
@[simp] theorem bytesOfAddr_addrOfBytes (hi mid lo : Byte) : bytesOfAddr (addrOfBytes hi mid lo) = [hi, mid, lo] := by
  rw [bytesOfAddr, addrOfBytes_hi, addrOfBytes_mid, addrOfBytes_lo]

/-- Nine bytes, whatever follows them, are three big-endian fields of three bytes each (R50, R51). -/
theorem decode_nine_bytes (a2 a1 a0 b2 b1 b0 c2 c1 c0 : Byte) (rest : List Byte) :
    decode (a2 :: a1 :: a0 :: b2 :: b1 :: b0 :: c2 :: c1 :: c0 :: rest) =
      .ok (.bbj (addrOfBytes a2 a1 a0) (addrOfBytes b2 b1 b0) (addrOfBytes c2 c1 c0), rest) := rfl

theorem decode_encode (i : Instr) (rest : List Byte) : decode (encode i ++ rest) = .ok (i, rest) := by
  cases i with
  | bbj a b c =>
    simp only [encode, bytesOfAddr, List.cons_append, List.nil_append, decode_nine_bytes, addrOfBytes_extract]

/-- At least nine bytes begin with the encoding of an instruction: no pattern is illegal (R54). -/
theorem exists_encode_append {bytes : List Byte} (h : 9 ≤ bytes.length) : ∃ i rest, bytes = encode i ++ rest := by
  match bytes, h with
  | a2 :: a1 :: a0 :: b2 :: b1 :: b0 :: c2 :: c1 :: c0 :: rest, _ =>
    exact ⟨.bbj (addrOfBytes a2 a1 a0) (addrOfBytes b2 b1 b0) (addrOfBytes c2 c1 c0), rest, by simp [encode]⟩

theorem decode_of_length_lt {bytes : List Byte} (h : bytes.length < 9) :
    decode bytes = .error (.truncated bytes.length) := by
  unfold decode
  split
  · simp only [List.length_cons] at h
    omega
  · rfl

/-! ### The opcode table's word -/

/-- A bit field of a bit field is a bit field of the word. -/
theorem extractLsb'_extractLsb' {w j m i k : Nat} (x : BitVec w) (h : i + k ≤ m) :
    (x.extractLsb' j m).extractLsb' i k = x.extractLsb' (j + i) k := by
  apply BitVec.eq_of_getLsbD_eq
  intro l hl
  have hlm : i + l < m := by omega
  simp only [BitVec.getLsbD_extractLsb', hl, hlm, decide_true, Bool.true_and, Nat.add_assoc]

/-- A row's word stands in memory as the encoding of the instruction with its three 24-bit fields, from the top (R51, R53;
log 28). -/
theorem bytesOfTableWord_eq_encode (w : BitVec 72) : bytesOfTableWord w =
    encode (.bbj (w.extractLsb' 48 24) (w.extractLsb' 24 24) (w.extractLsb' 0 24)) := by
  simp [bytesOfTableWord, encode, bytesOfAddr, extractLsb'_extractLsb']

theorem tableWord_toNat (w : BitVec 72) : tableWord 72 w.toNat = w := by
  rw [tableWord, Nat.mod_eq_of_lt w.isLt, BitVec.ofNat_toNat, BitVec.setWidth_eq]

/-- A whole 72-bit word decodes to what its bytes encode (R53). -/
theorem decodeTableWord_of_encode {w : BitVec 72} {i : Instr} (h : bytesOfTableWord w = encode i) :
    decodeTableWord 72 w.toNat = some i := by
  have hdecode : decode (encode i) = .ok (i, []) := by simpa using decode_encode i []
  simp [decodeTableWord, tableWord_toNat, h, hdecode]

end Sys2Proof
end

section
/-! SUPPORT. A `HALT` where it stands: its step moves the count and nothing else (spec/30_encoding.md R56,
40_bytebytejump.md R61 corner case g). -/

namespace Sys2Proof.Machine

/-- A copy from an address to itself leaves the whole state (R61 corner case a). -/
theorem State.storeByte_loadByte_self {s : State} (hmem : s.mem.wf) (x : Addr) : s.storeByte x (s.loadByte x) = s := by
  rw [storeByte, loadByte_eq, Memory.storeAt_byteAt_self hmem (addr_lt_memSize x)]

/-- What stands where a `HALT` does: its three fields are `x`, `x` and its own address (R56). -/
theorem windows_of_decode_halt {m : Memory} {x pc : Addr} (h : decode (fetch m pc) = .ok (Instr.halt x pc, [])) :
    window24 m pc.toNat = x ∧ window24 m (pc.toNat + 3) = x ∧ window24 m (pc.toNat + 6) = pc := by
  simpa [decode_fetch, Instr.halt] using h

theorem step_halt {s : State} {x pc : Addr} {n : Nat} (hmem : s.mem.wf) (hphase : s.phase = .burst pc n)
    (hpc : pc.toNat + 6 ≤ Config.addrMax) (hhalt : decode (fetch s.mem pc) = .ok (Instr.halt x pc, [])) :
    step s = .next (s.setPhase (Phase.afterInstruction pc n)) := by
  obtain ⟨hsource, hdest, htarget⟩ := windows_of_decode_halt hhalt
  have hcopy : s.copyAt pc = s := by rw [State.copyAt, hsource, hdest, State.storeByte_loadByte_self hmem]
  rw [step_jumps hphase hpc, hcopy, htarget]

theorem Phase.afterInstruction_last {n : Nat} (pc : Addr) (h : n + 1 = Config.burstLen) :
    Phase.afterInstruction pc n = .decode :=
  if_neg (by omega)

theorem State.setPhase_setPhase (s : State) (p q : Phase) : (s.setPhase p).setPhase q = s.setPhase q := rfl

/-- With `k + 1` instructions of the burst to go, a `HALT` takes `k + 1` steps to the decoders. -/
theorem run_halt (k : Nat) {s : State} {x pc : Addr} {n : Nat} (hn : n + (k + 1) = Config.burstLen) (hmem : s.mem.wf)
    (hphase : s.phase = .burst pc n) (hpc : pc.toNat + 6 ≤ Config.addrMax)
    (hhalt : decode (fetch s.mem pc) = .ok (Instr.halt x pc, [])) :
    Host.Core.run core (k + 1) s = .next (s.setPhase .decode) := by
  induction k generalizing s n with
  | zero => rw [run_succ 0 (step_halt hmem hphase hpc hhalt), Phase.afterInstruction_last pc hn, run_zero]
  | succ k ih =>
    have hstep := step_halt hmem hphase hpc hhalt
    rw [Phase.afterInstruction_burst pc (by omega)] at hstep
    rw [run_succ (k + 1) hstep, ih (s := s.setPhase (.burst pc (n + 1))) (by omega) hmem (State.setPhase_phase s _) hhalt,
      State.setPhase_setPhase]

end Sys2Proof.Machine
end

section
/-! The statements about the encoding (spec/30_encoding.md), settled. -/

namespace Sys2Proof.Proofs

open Sys2Proof.Machine

/-- Settles O1: by `decode_encode`, and every instruction is well-formed (R54). -/
theorem decodeOfEncodeIsTheInstruction : Obligations.DecodeOfEncodeIsTheInstruction :=
  fun i rest _ => decode_encode i rest

/-- Settles O2: fewer than nine bytes do not decode, and nine begin with an encoding, which decodes to its own
instruction. -/
theorem encodeOfDecodeIsTheBytes : Obligations.EncodeOfDecodeIsTheBytes := by
  intro bytes rest i hdecode
  rcases Nat.lt_or_ge bytes.length 9 with hshort | hlong
  · rw [decode_of_length_lt hshort] at hdecode
    cases hdecode
  · obtain ⟨j, tail, rfl⟩ := exists_encode_append hlong
    rw [decode_encode] at hdecode
    cases hdecode
    rfl

/-- Settles O3: a word's bytes are the encoding of its three fields, and a field of three bytes is their big-endian
value. -/
theorem everyPatternIsByteByteJump : Obligations.EveryPatternIsByteByteJump := by
  refine ⟨fun w => ?word, fun b0 b1 b2 b3 b4 b5 b6 b7 b8 => ?bytes⟩
  case word => exact decodeTableWord_of_encode (bytesOfTableWord_eq_encode w)
  case bytes =>
    exact ⟨_, _, _, decode_nine_bytes b0 b1 b2 b3 b4 b5 b6 b7 b8 [], addrOfBytes_toNat b0 b1 b2,
      addrOfBytes_toNat b3 b4 b5, addrOfBytes_toNat b6 b7 b8⟩

/-- Settles O4: nine bytes begin with an encoding, which is nine bytes long. -/
theorem onlyTooFewBytesAreRejected : Obligations.OnlyTooFewBytesAreRejected := by
  refine fun bytes => ⟨fun hlong => ?_, decode_of_length_lt⟩
  obtain ⟨i, rest, rfl⟩ := exists_encode_append hlong
  have hlength : (encode i).length = 9 := by cases i; rfl
  exact ⟨i, by rw [decode_encode, List.drop_left' hlength]⟩

/-- Settles O19, by `run_halt` for the `65536 - n` instructions still to come. -/
theorem haltIdlesToTheEndOfItsBurst : Obligations.HaltIdlesToTheEndOfItsBurst := by
  intro s x pc n hmem hphase hn hpc hhalt
  have hlegal : pc.toNat + 6 ≤ Config.addrMax := by simp only [Config.addrMax]; omega
  obtain ⟨k, hk⟩ : ∃ k, 65536 - n = k + 1 := ⟨65535 - n, by omega⟩
  have hcount : n + (k + 1) = Config.burstLen := by simp only [Config.burstLen]; omega
  rw [hk, run_halt k hcount hmem hphase hlegal hhalt]

/-- Settles O38, by `step_stepsTo`, which gives each part of the frame its next state. -/
theorem everyStepHasANextState : Obligations.EveryStepHasANextState := by
  intro s
  obtain ⟨t, hstep, -⟩ := step_stepsTo s
  exact ⟨t, hstep⟩

/-- Settles O5: the decoder reads both words, and the first instruction's encoding is its word. -/
theorem specExampleWordsDecode : Obligations.SpecExampleWordsDecode :=
  ⟨by rfl, by rfl, by rfl⟩

end Sys2Proof.Proofs
end

section
/-! SUPPORT. The bytes of a jump target, and what R61's pseudocode does when each of its two accesses raises or answers
(spec/40_bytebytejump.md R61, R62). -/

namespace Sys2Proof.Machine

/-! ### The jump target, byte by byte -/

theorem jumpTarget_hi (pc b : Addr) (v : Byte) (c : Addr) : (jumpTarget pc b v c).extractLsb' 16 8 =
    if b.toNat = pc.toNat + 6 then v else c.extractLsb' 16 8 :=
  addrOfBytes_hi _ _ _

theorem jumpTarget_mid (pc b : Addr) (v : Byte) (c : Addr) : (jumpTarget pc b v c).extractLsb' 8 8 =
    if b.toNat = pc.toNat + 7 then v else c.extractLsb' 8 8 :=
  addrOfBytes_mid _ _ _

theorem jumpTarget_lo (pc b : Addr) (v : Byte) (c : Addr) : (jumpTarget pc b v c).extractLsb' 0 8 =
    if b.toNat = pc.toNat + 8 then v else c.extractLsb' 0 8 :=
  addrOfBytes_lo _ _ _

/-! ### The pseudocode, access by access -/

theorem bbjAt_of_copyByte_error {m : Memory} {pc : Addr} {e : ErrorRecord}
    (h : copyByte m pc.toNat (pc.toNat + 3) = .error e) : bbjAt m pc = (m, .error e) := by
  simp only [bbjAt, h]

theorem bbjAt_of_copyByte_ok {m m' : Memory} {pc : Addr} (h : copyByte m pc.toNat (pc.toNat + 3) = .ok m') :
    bbjAt m pc = (m', read24 m' (pc.toNat + 6)) := by
  simp only [bbjAt, h]

/-- The pseudocode on a `HALT` leaves the store and `pc` (R56, R61 corner case g). -/
theorem bbjAt_halt {m : Memory} {x pc : Addr} (hmem : m.wf) (hpc : pc.toNat + 6 ≤ Config.addrMax)
    (hhalt : decode (fetch m pc) = .ok (Instr.halt x pc, [])) : bbjAt m pc = (m, .ok pc) := by
  obtain ⟨hsource, hdest, htarget⟩ := windows_of_decode_halt hhalt
  have hcopy : copyByte m pc.toNat (pc.toNat + 3) = .ok m := by
    rw [copyByte_ok m (addr_le pc) (by omega), hsource, hdest, Memory.storeAt_byteAt_self hmem (addr_lt_memSize x)]
  rw [bbjAt_of_copyByte_ok hcopy, read24_ok m hpc, htarget]

/-- An instruction that leaves the store and `pc` runs for the rest of the burst. -/
theorem burstLoop_of_bbjAt_self {m : Memory} {pc : Addr} (h : bbjAt m pc = (m, .ok pc)) (k : Nat) :
    burstLoop k m pc = (m, .ok pc) := by
  induction k with
  | zero => rfl
  | succ k ih => rw [burstLoop, h]; exact ih

end Sys2Proof.Machine
end

section
/-! SUPPORT. The progress of a burst: after each instruction it goes on with the count moved, or the frame is aborted
(spec/40_bytebytejump.md R64, R65; 60_exceptions.md R112). -/

namespace Sys2Proof.Machine

/-- The burst that begins at `s` has instruction `k` before it after `k` steps. -/
def State.inBurstAfter (s : State) (k : Nat) : Prop :=
  ∃ u pc, Host.Core.run core k s = .next u ∧ u.phase = .burst pc k

/-- After `k` steps from `s` the frame is over and its tick answers `OutOfBounds` (R82, R112). -/
def State.abortedAfter (s : State) (k : Nat) : Prop :=
  ∃ t a, Host.Core.run core k s = .next t ∧ t.phase = .idle ∧ t.reply = some (.fault (.oob a))

/-- The phase of a step in a burst: the instruction is counted, or it raised `OutOfBounds` (R62, R64, R112). -/
theorem step_burst_phase {s : State} {pc : Addr} {n : Nat} (hphase : s.phase = .burst pc n) :
    ∃ t, step s = .next t ∧ ((∃ pc', t.phase = Phase.afterInstruction pc' n) ∨
      (t.phase = .idle ∧ ∃ a, t.reply = some (.fault (.oob a)))) := by
  obtain ⟨t, hstep, ht⟩ := step_frameStep_of_burst hphase
  refine ⟨t, hstep, ?_⟩
  cases ht with
  | jumps hphase' =>
    cases hphase.symm.trans hphase'
    exact .inl ⟨_, rfl⟩
  | faultsAfterCopy | faultsBeforeCopy => exact .inr ⟨rfl, _, rfl⟩
  | emits hphase' | audioFaults hphase' => cases hphase.symm.trans hphase'

/-- One more step of a run that is in a burst. -/
theorem run_burst_succ {s u : State} {pc : Addr} {k : Nat} (hrun : Host.Core.run core k s = .next u)
    (hphase : u.phase = .burst pc k) :
    (∃ t pc', Host.Core.run core (k + 1) s = .next t ∧ t.phase = Phase.afterInstruction pc' k) ∨
      s.abortedAfter (k + 1) := by
  obtain ⟨t, hstep, ht⟩ := step_burst_phase hphase
  have hrun' : Host.Core.run core (k + 1) s = .next t := by rw [run_add k 1 hrun, run_succ 0 hstep, run_zero]
  rcases ht with ⟨pc', hpc'⟩ | ⟨hidle, a, hreply⟩
  · exact .inl ⟨t, pc', hrun', hpc'⟩
  · exact .inr ⟨t, a, hrun', hidle, hreply⟩

/-- Up to the last instruction, a burst has run one instruction a step, or an earlier one has aborted the frame. -/
theorem inBurstAfter_or_aborted {s : State} {pc : Addr} (hphase : s.phase = .burst pc 0) {k : Nat}
    (hk : k < Config.burstLen) :
    (∀ i ≤ k, s.inBurstAfter i) ∨ ∃ j < k, (∀ i ≤ j, s.inBurstAfter i) ∧ s.abortedAfter (j + 1) := by
  induction k with
  | zero =>
    refine .inl fun i hi => ?_
    obtain rfl : i = 0 := Nat.le_zero.mp hi
    exact ⟨s, pc, run_zero s, hphase⟩
  | succ k ih =>
    rcases ih (Nat.lt_of_succ_lt hk) with hburst | ⟨j, hj, hburst, hend⟩
    · obtain ⟨u, pc', hrun, hu⟩ := hburst k le_rfl
      rcases run_burst_succ hrun hu with ⟨t, pc'', hrun', ht⟩ | hend
      · refine .inl fun i hi => ?_
        rcases Nat.le_succ_iff.mp hi with hi | rfl
        · exact hburst i hi
        · exact ⟨t, pc'', hrun', ht.trans (Phase.afterInstruction_burst pc'' hk)⟩
      · exact .inr ⟨k, Nat.lt_succ_self k, hburst, hend⟩
    · exact .inr ⟨j, Nat.lt_succ_of_lt hj, hburst, hend⟩

end Sys2Proof.Machine
end

section
/-! SUPPORT. The opening of a frame by a tick that is due (spec/41_host_operations.md R78, R80; 42_io_decoders.md R91). -/

namespace Sys2Proof.Machine

/-- A tick that is due opens a frame, with `LFT` advanced (R78, R80). -/
theorem State.tickOpen_due {s : State} {time : Time} (hrun : s.run = true)
    (hdue : Config.frameDuration ≤ time - s.lft) : ∃ lft, s.tickOpen time = (s.setLft lft).beginFrame := by
  rcases s.tickOpen_cases time with ⟨hnone, -⟩ | ⟨-, lft, -, hopen⟩
  · rw [admits_due hrun (not_lt.mpr hdue)] at hnone
    cases hnone
  · exact ⟨lft, hopen⟩

theorem step_tick_due {s : State} {time : Time} {rest : List HostOp} (hawaits : s.awaits (.tick time) rest)
    (hrun : s.run = true) (hdue : Config.frameDuration ≤ time - s.lft) :
    ∃ lft, step s = .next (({ s with pending := rest } : State).setLft lft).beginFrame := by
  obtain ⟨lft, hopen⟩ := State.tickOpen_due (s := { s with pending := rest }) hrun hdue
  exact ⟨lft, by rw [step_idle hawaits.1, hostStep_cons hawaits.2, ← hopen]; rfl⟩

/-- The keyboard write touches bytes 0 and 1 only (R91). -/
theorem State.beginFrame_byteAt (s : State) {i : Nat} (hi : ¬ (i = 0 ∨ i = 1)) :
    s.beginFrame.mem.byteAt i = s.mem.byteAt i := by
  obtain ⟨h0, h1⟩ := not_or.mp hi
  rw [beginFrame_mem, Memory.byteAt_storeAt, if_neg h1, Memory.byteAt_storeAt, if_neg h0]

end Sys2Proof.Machine
end

section
/-! The statements about the instruction, its burst and the opening of a frame (spec/40_bytebytejump.md), settled. -/

namespace Sys2Proof.Proofs

open Sys2Proof.Machine

/-- Settles O11: below the top `exec` is one store and a jump, whose target is known byte by byte. -/
theorem byteByteJumpCompletes : Obligations.ByteByteJumpCompletes := by
  intro s a b c pc n hphase hpc
  have hlegal : pc.toNat + 6 ≤ Config.addrMax := by simp only [Config.addrMax]; omega
  refine ⟨_, _, execBbj_jumps hphase hlegal a b c, ?stored, sameBytesExcept_storeAt s.mem _ _, rfl, jumpTarget_hi pc b _ c,
    jumpTarget_mid pc b _ c, jumpTarget_lo pc b _ c, fun hout => jumpTarget_outside _ c (by omega),
    ⟨rfl, rfl, rfl, rfl, rfl, rfl⟩, ?same⟩
  case stored => simp
  case same =>
    rintro hmem rfl
    rw [State.storeByte_loadByte_self hmem, State.setPhase_mem]

/-- Settles O12: above the bound on `pc + 3` the fault comes before the copy, otherwise after it. -/
theorem byteByteJumpFaultsNearTheTop : Obligations.ByteByteJumpFaultsNearTheTop := by
  refine fun s a b c pc n hphase => ⟨fun hlow hhigh => ?afterCopy, fun hlow => ?beforeCopy⟩
  case afterCopy =>
    have hcopy : pc.toNat + 3 ≤ Config.addrMax := by simp only [Config.addrMax]; omega
    have hpc : Config.addrMax < pc.toNat + 6 := by simp only [Config.addrMax]; omega
    exact ⟨_, execBbj_faults_after_copy hphase hcopy hpc a b c, ⟨rfl, rfl, rfl, rfl, rfl, rfl, rfl⟩, by simp,
      sameBytesExcept_storeAt s.mem _ _⟩
  case beforeCopy =>
    have hpc : Config.addrMax < pc.toNat + 3 := by simp only [Config.addrMax]; omega
    exact ⟨_, execBbj_faults_before_copy hphase hpc a b c, ⟨rfl, rfl, rfl, rfl, rfl, rfl, rfl⟩, rfl⟩

/-- Settles O15, by `step_bbjAt`: the step does what the pseudocode does, whose two accesses say what that is. -/
theorem stepIsCopyByteThenRead24 : Obligations.StepIsCopyByteThenRead24 := by
  intro s pc n hphase
  rcases step_bbjAt hphase with ⟨m, pc', hbbj, hstep⟩ | ⟨m, e, hbbj, hstep⟩
  · refine ⟨_, hstep, fun e' hcopy => ?copyRaises, fun m' hcopy => ?copied⟩
    case copyRaises => simp [bbjAt_of_copyByte_error hcopy] at hbbj
    case copied =>
      obtain ⟨rfl, hread⟩ : m' = m ∧ read24 m' (pc.toNat + 6) = .ok pc' := by simpa [bbjAt_of_copyByte_ok hcopy] using hbbj
      refine ⟨rfl, fun e' hraise => ?_, fun target hanswer => ?_⟩
      · cases hread.symm.trans hraise
      · cases hread.symm.trans hanswer
        exact ⟨rfl, rfl, rfl, rfl, rfl, rfl, rfl⟩
  · refine ⟨_, hstep, fun e' hcopy => ?copyRaises, fun m' hcopy => ?copied⟩
    case copyRaises =>
      obtain ⟨rfl, -⟩ : s.mem = m ∧ e' = e := by simpa [bbjAt_of_copyByte_error hcopy] using hbbj
      exact ⟨rfl, rfl⟩
    case copied =>
      obtain ⟨rfl, hread⟩ : m' = m ∧ read24 m' (pc.toNat + 6) = .error e := by
        simpa [bbjAt_of_copyByte_ok hcopy] using hbbj
      refine ⟨rfl, fun _ _ => rfl, fun target hanswer => ?_⟩
      cases hread.symm.trans hanswer

/-- Settles O17: `inBurstAfter_or_aborted` leads to the last instruction, and one more step to the decoders or to its
fault. -/
theorem burstAlwaysTerminates : Obligations.BurstAlwaysTerminates := by
  intro s pc hphase
  rcases inBurstAfter_or_aborted hphase (k := 65535) (by decide) with hburst | ⟨j, hj, hburst, hend⟩
  · obtain ⟨u, pc', hrun, hu⟩ := hburst 65535 le_rfl
    rcases run_burst_succ hrun hu with ⟨t, pc'', hrun', ht⟩ | hend
    · exact .inl ⟨fun k hk => hburst k (by omega), t, hrun', ht.trans (Phase.afterInstruction_last pc'' rfl)⟩
    · exact .inr ⟨65535, by omega, hburst, hend⟩
  · exact .inr ⟨j, by omega, hburst, hend⟩

/-- Settles O18: the program is a `HALT` at 9, which each of the burst's instructions finds again. -/
theorem noOpProgramLeavesTheStore : Obligations.NoOpProgramLeavesTheStore := by
  intro m hmem h2 h3 h4 hprogram
  have hstart : window24 m pcStartAddr = 0x000009 := by
    simp only [window24_eq, pcStartAddr, h2, h3, h4]
    rfl
  have hhalt : decode (fetch m 0x000009) = .ok (Instr.halt 0x000009 0x000009, []) := by rw [hprogram]; rfl
  rw [burst_eq, hstart, burstLoop_of_bbjAt_self (bbjAt_halt hmem (by decide) hhalt)]

/-- Settles O20: the tick's step is the opening of a frame, whose keyboard write does not reach bytes 2 to 4. -/
theorem frameOpensWithKeyboardWriteAndPcstart : Obligations.FrameOpensWithKeyboardWriteAndPcstart := by
  intro s time rest hawaits hrun hdue
  obtain ⟨lft, hstep⟩ := step_tick_due hawaits hrun hdue
  refine ⟨_, _, hstep, State.beginFrame_phase _, ?pcstart, ?high, ?low, fun i hi => State.beginFrame_byteAt _ hi,
    by simp, by simp, by simp, by simp⟩
  case pcstart =>
    rw [window24_toNat, State.beginFrame_byteAt _ (by decide), State.beginFrame_byteAt _ (by decide),
      State.beginFrame_byteAt _ (by decide)]
    rfl
  case high =>
    rw [State.beginFrame_mem, Memory.byteAt_storeAt, if_neg (by decide), Memory.byteAt_storeAt, if_pos rfl, highByte_toNat]
    rfl
  case low =>
    rw [State.beginFrame_mem, Memory.byteAt_storeAt, if_pos rfl, lowByte_toNat]
    rfl

/-- Settles O14: with its instruction decoded, the step is `exec`, whose next state is counted if it is in a burst. -/
theorem stepRunsTheDecodedInstruction : Obligations.StepRunsTheDecodedInstruction := by
  intro s pc n i rest hphase hdecode
  have hnext {t : State} (hexec : exec i s = .next t) : step s = .next t.countIteration := by
    simp only [step_burst hphase, instructionStep, hdecode, hexec]
  refine ⟨fun t pc' k hexec ht => ?counted, fun t hexec ht => ?ended, fun f hexec => ?fault, fun r hexec => ?refused⟩
  case counted =>
    rw [hnext hexec, countIteration_burst ht]
    rfl
  case ended =>
    have hout : ∀ pc' k, t.phase ≠ .burst pc' k := by rcases ht with ht | ht <;> simp [ht]
    rw [hnext hexec, countIteration_of_not_burst hout]
  case fault => simp only [step_burst hphase, instructionStep, hdecode, hexec]
  case refused => simp only [step_burst hphase, instructionStep, hdecode, hexec]

end Sys2Proof.Proofs
end

section
/-! SUPPORT. A step between frames is the waiting operation, and the host operations and registers in the terms of their
own data (spec/41_host_operations.md R71 to R77, R83). -/

namespace Sys2Proof.Machine

/-- Between frames the step is the waiting operation, with the ones behind it left to wait (R71). -/
theorem State.awaits.step_eq {s : State} {op : HostOp} {rest : List HostOp} (h : s.awaits op rest) :
    step s = .next (op.apply { s with pending := rest }) := by
  rw [step_idle h.1, hostStep_cons h.2]

/-- A step of a frame in progress is one of `FrameStep`'s. -/
theorem frameStep_of_step {s t : State} (hframe : s.phase.inFrame = true) (hstep : step s = .next t) : FrameStep s t := by
  cases stepsTo_of_step hstep with
  | waits hphase => simp [hphase, Phase.inFrame] at hframe
  | hostOp hawaits => simp [hawaits.1, Phase.inFrame] at hframe
  | frame h => exact h

/-! ### The key bits (R74, R75) -/

theorem getLsbD_one_shiftLeft {j : Nat} (k : Nat) (hj : j < 16) : (1#16 <<< k).getLsbD j = decide (j = k) := by
  rw [BitVec.getLsbD_shiftLeft, BitVec.getLsbD_one, Bool.eq_iff_iff]
  simp only [hj, decide_true, Bool.true_and, Bool.and_eq_true, Bool.not_eq_true', decide_eq_false_iff_not,
    decide_eq_true_eq]
  omega

theorem pressKey_getLsbD (keys : KeyWord) (k : Nat) {j : Nat} (hj : j < 16) :
    (pressKey keys k).getLsbD j = (keys.getLsbD j || decide (j = k)) := by
  unfold pressKey
  split
  · rw [BitVec.getLsbD_or, getLsbD_one_shiftLeft k hj]
  · next hk =>
    have hne : j ≠ k := by simp only [Config.nKeys] at hk; omega
    simp [hne]

theorem releaseKey_getLsbD (keys : KeyWord) (k : Nat) {j : Nat} (hj : j < 16) :
    (releaseKey keys k).getLsbD j = (keys.getLsbD j && decide (j ≠ k)) := by
  unfold releaseKey
  split
  · rw [BitVec.getLsbD_and, BitVec.getLsbD_not, getLsbD_one_shiftLeft k hj, decide_eq_true hj, Bool.true_and, decide_not]
  · next hk =>
    have hne : j ≠ k := by simp only [Config.nKeys] at hk; omega
    simp [hne]

/-! ### The memory-mapped words (R83, R95) -/

theorem keyword_toNat (m : Memory) : (keyword m).toNat = (m.byteAt 0).toNat * 256 + (m.byteAt 1).toNat :=
  toNat_append_byte _ _

theorem fbBase_toNat (m : Memory) : (fbBase m).toNat = (m.byteAt 5).toNat * 65536 := by
  rw [fbBase, BitVec.toNat_append, BitVec.toNat_zero, Nat.or_zero, Nat.shiftLeft_eq, fbPageAddr]

end Sys2Proof.Machine
end

section
/-! SUPPORT. The scheduler's arithmetic: what an admitted tick does to `LFT` (spec/41_host_operations.md R78, R79 b; D6). -/

namespace Sys2Proof.Machine

/-- The remainder of exact times is the fractional part of the quotient, scaled back (R6). -/
theorem timeMod_eq_fract_mul (d : Time) {f : Time} (hf : f ≠ 0) : timeMod d f = Int.fract (d / f) * f := by
  have hd : d / f * f = d := div_mul_cancel₀ d hf
  show d - (⌊d / f⌋ : Time) * f = Int.fract (d / f) * f
  rw [Int.fract, sub_mul, hd]

theorem timeMod_nonneg (d : Time) {f : Time} (hf : 0 < f) : 0 ≤ timeMod d f := by
  rw [timeMod_eq_fract_mul d hf.ne']
  exact mul_nonneg (Int.fract_nonneg _) hf.le

theorem timeMod_lt (d : Time) {f : Time} (hf : 0 < f) : timeMod d f < f := by
  rw [timeMod_eq_fract_mul d hf.ne']
  exact mul_lt_of_lt_one_left hf (Int.fract_lt_one _)

/-- A time of at least one period is a positive whole number of periods and the remainder. -/
theorem exists_periods_add_timeMod {d f : Time} (hf : 0 < f) (h : f ≤ d) : ∃ j : Nat, 1 ≤ j ∧ d = j * f + timeMod d f := by
  obtain ⟨j, hj⟩ := Int.eq_ofNat_of_zero_le (Int.floor_nonneg.mpr (div_nonneg (hf.le.trans h) hf.le))
  have hone : 1 ≤ ⌊d / f⌋ := Int.le_floor.mpr (by simpa using (one_le_div hf).mpr h)
  refine ⟨j, by omega, ?_⟩
  have hmod : timeMod d f = d - (⌊d / f⌋ : Time) * f := rfl
  rw [hmod, hj, Int.cast_natCast, add_sub_cancel]

theorem frameDuration_pos : 0 < Config.frameDuration := by norm_num [Config.frameDuration]

/-- The new `LFT` of an admitted tick lies less than one period behind it, and a positive whole number of periods after the
old one (R78, R79 b). -/
structure TickAdvances (old time new : Time) : Prop where
  reached : 0 ≤ time - new
  close : time - new < Config.frameDuration
  periods : ∃ j : Nat, 1 ≤ j ∧ new = old + j * Config.frameDuration

theorem tickAdvances_of_admits {s : State} {time lft : Time} (h : s.admits time = some lft) :
    TickAdvances s.lft time lft := by
  rcases admits_cases s time with ⟨-, hnone⟩ | ⟨-, hdue, hsome⟩
  · cases hnone.symm.trans h
  · cases hsome.symm.trans h
    obtain ⟨j, hj, hsplit⟩ := exists_periods_add_timeMod frameDuration_pos (not_lt.mp hdue)
    refine ⟨?reached, ?close, j, hj, by linarith⟩
    case reached => rw [sub_sub_cancel]; exact timeMod_nonneg _ frameDuration_pos
    case close => rw [sub_sub_cancel]; exact timeMod_lt _ frameDuration_pos

theorem TickAdvances.lt {old time new : Time} (h : TickAdvances old time new) : old < new := by
  obtain ⟨j, hj, rfl⟩ := h.periods
  have hpos : 0 < (j : Time) * Config.frameDuration := mul_pos (Nat.cast_pos.mpr hj) frameDuration_pos
  exact lt_add_of_pos_right old hpos

theorem State.tickOpen_idle {s : State} {time : Time} (h : s.admits time = none) : s.tickOpen time = s.answer .idle := by
  simp only [tickOpen, h]

theorem State.tickOpen_admitted {s : State} {time lft : Time} (h : s.admits time = some lft) :
    s.tickOpen time = (s.setLft lft).beginFrame := by
  simp only [tickOpen, h]

/-! ### The grid (R79 b) -/

theorem reset_onGrid : State.reset.onGrid := ⟨0, by simp⟩

theorem State.onGrid.congr {s t : State} (h : s.onGrid) (hlft : t.lft = s.lft) : t.onGrid := by
  obtain ⟨j, hj⟩ := h
  exact ⟨j, hlft.trans hj⟩

/-- A whole number of periods after a time on the grid is on the grid. -/
theorem State.onGrid.tickAdvances {s t : State} (h : s.onGrid) {time : Time} (hadv : TickAdvances s.lft time t.lft) :
    t.onGrid := by
  obtain ⟨i, hi⟩ := h
  obtain ⟨j, -, hj⟩ := hadv.periods
  exact ⟨i + j, by rw [hj, hi, Nat.cast_add, add_mul, add_assoc]⟩

theorem State.onGrid.tickOpen {s : State} (h : s.onGrid) (time : Time) : (s.tickOpen time).onGrid := by
  rcases s.tickOpen_cases time with ⟨-, hopen⟩ | ⟨-, lft, hadmits, hopen⟩
  · rw [hopen]
    exact h.congr rfl
  · rw [hopen]
    exact h.tickAdvances (by simpa using tickAdvances_of_admits hadmits)

/-- No operation takes `LFT` off the grid: only a reset and a tick write it. -/
theorem State.onGrid.apply {s : State} (h : s.onGrid) (op : HostOp) : (op.apply s).onGrid := by
  by_cases hlft : (op.apply s).lft = s.lft
  · exact h.congr hlft
  · rcases lft_apply_ne hlft with rfl | ⟨time, rfl⟩
    · exact reset_onGrid.congr rfl
    · exact h.tickOpen time

end Sys2Proof.Machine
end

section
/-! SUPPORT. What a frame in progress depends on, and how a frame ends (spec/41_host_operations.md R79 e, R80, R81;
10_state.md R19, R22). -/

namespace Sys2Proof.Machine

/-! ### The close of a frame -/

theorem finishFrame_of_audio {s : State} {audio : AudioOut} (h : audioDecode s.mem = .ok audio) :
    s.finishFrame = (s.setPhase .idle).answer (.frame (videoDecode s.mem) audio) := by
  simp only [State.finishFrame, h]

theorem finishFrame_of_raise {s : State} {e : ErrorRecord} (h : audioDecode s.mem = .error e) :
    s.finishFrame = s.takeFault e := by
  simp only [State.finishFrame, h]

@[simp] theorem State.finishFrame_mem (s : State) : s.finishFrame.mem = s.mem := by
  rcases finishFrame_cases s with ⟨audio, -, h⟩ | ⟨-, h⟩ <;> rw [h] <;> rfl

/-- What the close of a frame answers is a function of the store. -/
theorem finishFrame_reply_congr {s s' : State} (h : s'.mem = s.mem) : s'.finishFrame.reply = s.finishFrame.reply := by
  cases haudio : audioDecode s.mem with
  | error e => rw [finishFrame_of_raise haudio, finishFrame_of_raise (h ▸ haudio)]; rfl
  | ok audio => rw [finishFrame_of_audio haudio, finishFrame_of_audio (h ▸ haudio), h]; rfl

/-! ### One step of a frame, as a function of the store and the phase -/

/-- The part of the frame that follows an instruction of count `n`, by what R61's pseudocode answered (R64, R112). -/
def Phase.afterBbj (n : Nat) : Except ErrorRecord Addr → Phase
  | .ok pc => Phase.afterInstruction pc n
  | .error _ => .idle

/-- The store and the phase after a step in a burst are those of R61's pseudocode at `pc`. -/
theorem step_burst_mem_phase {s t : State} {pc : Addr} {n : Nat} (hphase : s.phase = .burst pc n)
    (hstep : step s = .next t) :
    t.mem = (bbjAt s.mem pc).1 ∧ t.phase = Phase.afterBbj n (bbjAt s.mem pc).2 := by
  rcases step_bbjAt hphase with ⟨m, pc', hbbj, hstep'⟩ | ⟨m, e, hbbj, hstep'⟩
  · cases hstep'.symm.trans hstep
    rw [hbbj]
    exact ⟨rfl, rfl⟩
  · cases hstep'.symm.trans hstep
    rw [hbbj]
    exact ⟨rfl, rfl⟩

theorem step_decode_mem_phase {s t : State} (hphase : s.phase = .decode) (hstep : step s = .next t) :
    t.mem = s.mem ∧ t.phase = .idle := by
  cases (step_decode hphase).symm.trans hstep
  exact ⟨s.finishFrame_mem, s.finishFrame_phase⟩

/-! ### The whole frame -/

/-- The store a frame ends with, and its reply, do not depend on the registers it started with. -/
theorem State.afterBurst_congr (s s' : State) (r : Memory × Except ErrorRecord Addr) :
    (s'.afterBurst r).mem = (s.afterBurst r).mem ∧ (s'.afterBurst r).reply = (s.afterBurst r).reply := by
  rcases r with ⟨m, e | pc⟩
  · exact ⟨rfl, rfl⟩
  · exact ⟨by simp, finishFrame_reply_congr rfl⟩

/-- An instruction can raise only for `pc + 6` after its copy and `pc + 3` before it, just past the top (R62, R111). -/
theorem bbjAt_latchable {m m' : Memory} {pc : Addr} {e : ErrorRecord} (h : bbjAt m pc = (m', .error e)) :
    e.latchable := by
  rcases pc_range pc with hpc | ⟨hcopy, hpc⟩ | hpc
  · have hcopy : pc.toNat + 3 ≤ Config.addrMax := by omega
    rw [bbjAt_of_copyByte_ok (copyByte_ok m (addr_le pc) hcopy), read24_ok _ hpc] at h
    cases h
  · rw [bbjAt_of_copyByte_ok (copyByte_ok m (addr_le pc) hcopy), read24_error _ hpc] at h
    cases h
    exact latchable_oob hpc (by simp only [Config.addrMax] at hcopy; omega)
  · rw [bbjAt_faults_before_copy m hpc] at h
    cases h
    exact latchable_oob hpc (by have := pc.isLt; omega)

theorem burstLoop_latchable (k : Nat) {m m' : Memory} {pc : Addr} {e : ErrorRecord}
    (h : burstLoop k m pc = (m', .error e)) : e.latchable := by
  induction k generalizing m pc with
  | zero => cases h
  | succ k ih =>
    rcases hbbj : bbjAt m pc with ⟨m₁, e₁ | pc₁⟩
    · simp only [burstLoop, hbbj] at h
      cases h
      exact bbjAt_latchable hbbj
    · simp only [burstLoop, hbbj] at h
      exact ih h

/-- A frame ends with both outputs, decoded from the store it leaves, or with the fault of an instruction or of the audio
decoder (R80, R81). -/
theorem State.frame_cases (s : State) : ∃ m,
    (∃ audio, audioDecode m = .ok audio ∧
      s.frame = ((s.beginFrame.setMem m).setPhase .idle).answer (.frame (videoDecode m) audio)) ∨
    (∃ e, e.latchable ∧ s.frame = (s.beginFrame.setMem m).takeFault e) := by
  rw [s.frame_eq]
  rcases hburst : burst s.beginFrame.mem with ⟨m, e | pc⟩
  · rw [burst_eq] at hburst
    exact ⟨m, .inr ⟨e, burstLoop_latchable _ hburst, rfl⟩⟩
  · rcases finishFrame_cases (s.beginFrame.setMem m) with ⟨audio, haudio, hend⟩ | ⟨-, hend⟩
    · exact ⟨m, .inl ⟨audio, haudio, hend⟩⟩
    · exact ⟨m, .inr ⟨_, latchable_oob (by decide) (by decide), hend⟩⟩

theorem ErrorRecord.latchable.exists_oob {e : ErrorRecord} (h : e.latchable) :
    ∃ a, Config.addrMax < a ∧ e = .oob a := by
  obtain ⟨hkind, hlow, -⟩ := h
  exact ⟨e.value, hlow, by rw [oob, ← hkind]⟩

theorem State.tick_idle {s : State} {time : Time} (h : s.admits time = none) : s.tick time = s.answer .idle := by
  simp only [tick, h]

theorem State.tick_admitted {s : State} {time lft : Time} (h : s.admits time = some lft) :
    s.tick time = (s.setLft lft).frame := by
  simp only [tick, h]

end Sys2Proof.Machine
end

section
/-! The statements about the host's operations (spec/41_host_operations.md), settled. -/

namespace Sys2Proof.Proofs

open Sys2Proof.Machine

/-- Settles O22: the tick is admitted, and `TickAdvances` says where the new `LFT` lies. -/
theorem tickKeepsThePhase : Obligations.TickKeepsThePhase := by
  intro s time rest hawaits hrun hdue
  have hadmits := admits_due (s := { s with pending := rest }) hrun (not_lt.mpr hdue)
  obtain ⟨hreached, hclose, hperiods⟩ := tickAdvances_of_admits hadmits
  refine ⟨_, hawaits.step_eq.trans (congrArg _ (State.tickOpen_admitted hadmits)), ?_⟩
  rw [State.beginFrame_lft, State.setLft_lft]
  exact ⟨hreached, hclose, hperiods⟩

/-- Settles O26: the stop is the waiting operation's own step, and `FrameStep.keeps` says what a step in a frame leaves. -/
theorem stopTakesEffectOnlyBetweenFrames : Obligations.StopTakesEffectOnlyBetweenFrames := by
  refine ⟨fun s rest hawaits => hawaits.step_eq, fun s t hframe hstep => ?_⟩
  obtain ⟨hkeys, hlft, hpending, hlatch⟩ := (frameStep_of_step hframe hstep).keeps
  exact ⟨hpending, hkeys, hlft, hlatch.imp_left And.left⟩

/-- Settles O33: the step writes `KEYS` only, whose bits are those of `pressKey` and `releaseKey`. -/
theorem keyEventsSetAndClearOneBit : Obligations.KeyEventsSetAndClearOneBit :=
  fun s k _ => ⟨fun hawaits => ⟨_, hawaits.step_eq, fun _ hj => pressKey_getLsbD s.keys k hj⟩,
    fun hawaits => ⟨_, hawaits.step_eq, fun _ hj => releaseKey_getLsbD s.keys k hj⟩⟩

/-- Settles O34: the image fits, so the store is `Memory.ofImage`, whose byte `i` is image byte `i`. -/
theorem loadImageReplacesTheStore : Obligations.LoadImageReplacesTheStore := by
  intro s bytes rest hawaits hlen
  refine ⟨_, hawaits.step_eq.trans (congrArg _ (State.loadImage_fits hlen)), fun i hi => ?inside, fun i hi => ?beyond,
    Memory.wf_ofImage hlen, rfl, rfl, rfl, rfl, hawaits.1, rfl, rfl⟩
  case inside => rw [Memory.byteAt_ofImage, List.getD_eq_getElem _ _ hi]
  case beyond => rw [Memory.byteAt_ofImage, List.getD_eq_default _ _ hi]; rfl

/-- Settles O44: only a reset and a tick write `LFT`, and a frame in progress leaves it. -/
theorem lastFrameTimeStaysOnTheGrid : Obligations.LastFrameTimeStaysOnTheGrid := by
  refine ⟨reset_onGrid, fun s t hgrid hstep => ?_⟩
  cases stepsTo_of_step hstep with
  | waits => exact hgrid
  | @hostOp op rest hawaits => exact State.onGrid.apply (s := { s with pending := rest }) hgrid op
  | frame hframe => exact hgrid.congr hframe.keeps.lft

/-- Settles O46: in a burst the store and the phase go on as R61's pseudocode says, and the decoders leave the store. -/
theorem burstDependsOnlyOnTheStore : Obligations.BurstDependsOnlyOnTheStore := by
  intro s s' t t' hframe hphase hmem hstep hstep'
  cases hs : s.phase with
  | idle => simp [hs, Phase.inFrame] at hframe
  | burst pc n =>
    obtain ⟨ht, htphase⟩ := step_burst_mem_phase hs hstep
    obtain ⟨ht', htphase'⟩ := step_burst_mem_phase (hphase.trans hs) hstep'
    rw [ht, htphase, ht', htphase', hmem]
    exact ⟨rfl, rfl⟩
  | decode =>
    obtain ⟨ht, htphase⟩ := step_decode_mem_phase hs hstep
    obtain ⟨ht', htphase'⟩ := step_decode_mem_phase (hphase.trans hs) hstep'
    exact ⟨by rw [ht', ht, hmem], by rw [htphase', htphase]⟩

/-- Settles O47: the burst starts on the store with `KEYS` written into it, and its end does not look at the registers. -/
theorem frameIsAFunctionOfStoreAndKeys : Obligations.FrameIsAFunctionOfStoreAndKeys := by
  intro s s' hmem hkeys
  have hstart : s'.beginFrame.mem = s.beginFrame.mem := by
    rw [State.beginFrame_mem, State.beginFrame_mem, hmem, hkeys]
  obtain ⟨hend, hreply⟩ := State.afterBurst_congr s.beginFrame s'.beginFrame (burst s.beginFrame.mem)
  refine ⟨?_, ?_, by rw [s'.frame_phase, s.frame_phase]⟩
  · rw [s'.frame_eq, s.frame_eq, hstart, hend]
  · rw [s'.frame_eq, s.frame_eq, hstart, hreply]

/-- Settles O50: by the scheduler's decision, then by how the frame it admits ends. -/
theorem tickAnswersIdleFrameOrFault : Obligations.TickAnswersIdleFrameOrFault := by
  intro s time hfault
  rcases admits_cases s time with ⟨hidle, hadmits⟩ | ⟨hrun, hdue, hadmits⟩
  · exact .inl ⟨hidle, State.tick_idle hadmits⟩
  · refine .inr ⟨⟨hrun, not_lt.mp hdue⟩, ?_⟩
    have hlft := (tickAdvances_of_admits hadmits).lt
    rw [State.tick_admitted hadmits]
    obtain ⟨m, ⟨audio, haudio, hend⟩ | ⟨e, he, hend⟩⟩ := State.frame_cases (s.setLft _)
    · rw [hend]
      exact .inl ⟨audio, rfl, haudio, by simpa using hfault, by simpa using hrun, by simp, by simpa using hlft⟩
    · rw [hend]
      obtain ⟨a, hlow, rfl⟩ := he.exists_oob
      exact .inr ⟨a, rfl, rfl, rfl, hlow, by simp, by simpa using hlft⟩

/-- Settles O21: the scheduler admits no frame. -/
theorem earlyOrStoppedTickIsANoOp : Obligations.EarlyOrStoppedTickIsANoOp := by
  intro s time rest hawaits hidle
  have hadmits : ({ s with pending := rest } : State).admits time = none := by
    rcases hidle with hstopped | hearly
    · exact admits_stopped hstopped time
    · exact admits_early hearly
  exact hawaits.step_eq.trans (congrArg _ (State.tickOpen_idle hadmits))

/-- Settles O23: a pointer of at most `0xFFFF00` gives the samples, and the close emits them with the image. -/
theorem frameClosesWithBothOutputs : Obligations.FrameClosesWithBothOutputs := by
  intro s hphase hpointer
  rcases audioDecode_cases s.mem with ⟨-, haudio⟩ | ⟨hover, -⟩
  · exact ⟨_, haudio, (step_decode hphase).trans (congrArg _ (finishFrame_of_audio haudio))⟩
  · exact absurd hpointer (Nat.not_le.mpr hover)

/-- Settles O27: by the two cases of `Start`. -/
theorem startIsIgnoredWhileFaulted : Obligations.StartIsIgnoredWhileFaulted :=
  fun _ _ hawaits => ⟨fun hfault => hawaits.step_eq.trans (congrArg _ (State.start_fault_free hfault)),
    fun hfault => hawaits.step_eq.trans (congrArg _ (State.start_faulted hfault))⟩

/-- Settles O35: a longer image is refused before anything is written. -/
theorem oversizedImageIsRefusedWhole : Obligations.OversizedImageIsRefusedWhole :=
  fun _ _ _ hawaits hlen => hawaits.step_eq.trans (congrArg _ (State.loadImage_oversized hlen))

/-- Settles O37: each operation only answers, and the four words are big-endian windows of the store. -/
theorem introspectionChangesNothing : Obligations.IntrospectionChangesNothing :=
  fun s _ => ⟨fun hawaits => hawaits.step_eq, fun hawaits => hawaits.step_eq,
    fun hawaits => ⟨inspection s.mem, hawaits.step_eq, keyword_toNat s.mem, window24_toNat s.mem pcStartAddr,
      fbBase_toNat s.mem, window24_toNat s.mem audPtrAddr⟩⟩

end Sys2Proof.Proofs
end

section
/-! SUPPORT. The three decoders' functions in the terms of their own data (spec/42_io_decoders.md R95 to R102): palette
entries and pixels, samples, and the two answers of the audio decoder. -/

namespace Sys2Proof.Machine

/-! ### The palette (R97, R98) -/

/-- Entry `36 r + 6 g + b`: the three digits in base 6 select the components. -/
theorem palette_cube {i : Byte} {r g b : Nat} (hr : r < 6) (hg : g < 6) (hb : b < 6)
    (hi : i.toNat = 36 * r + 6 * g + b) :
    palette i = ⟨cubeComponent r, cubeComponent g, cubeComponent b, 0xFF⟩ := by
  have hred : i.toNat / 36 = r := by omega
  have hgreen : i.toNat / 6 % 6 = g := by omega
  have hblue : i.toNat % 6 = b := by omega
  rw [palette, if_pos (by omega), hred, hgreen, hblue]

theorem palette_black {i : Byte} (h : 216 ≤ i.toNat) : palette i = ⟨0x00, 0x00, 0x00, 0xFF⟩ := by
  rw [palette, if_neg (by omega)]

theorem Rgba.packed_toNat (p : Rgba) :
    p.packed.toNat = p.r.toNat * 16777216 + p.g.toNat * 65536 + p.b.toNat * 256 + p.a.toNat := by
  rw [packed, toNat_append_byte, toNat_append_byte, toNat_append_byte]
  omega

/-! ### The video decoder (R95, R96) -/

theorem videoDecode_getElem? (m : Memory) {i : Nat} (h : i < Config.fbPixels) :
    (videoDecode m)[i]? = some (palette (m.byteAt ((m.byteAt 5).toNat * 65536 + i))) := by
  rw [Vector.getElem?_eq_getElem h, videoDecode, Vector.getElem_ofFn, pixel, fbBase_toNat]

/-! ### The audio decoder (R100 to R102) -/

/-- A byte below `0x80` is its own two's complement value (R101). -/
theorem sample_of_lt {b : Byte} (h : b.toNat < 128) : sample b = (b.toNat : Rat) / 128 := by
  rw [sample, BitVec.toInt_eq_toNat_of_lt (by omega), Int.cast_natCast]

/-- A byte from `0x80` on stands for 256 less (R101). -/
theorem sample_of_ge {b : Byte} (h : 128 ≤ b.toNat) : sample b = ((b.toNat : Rat) - 256) / 128 := by
  have hvalue : b.toInt = (b.toNat : Int) - 256 := by
    rw [BitVec.toInt_eq_toNat_cond, if_neg (by omega)]
    rfl
  rw [sample, hvalue, Int.cast_sub, Int.cast_natCast, Int.cast_ofNat]

theorem neg_one_le_sample (b : Byte) : -1 ≤ sample b := by
  have hlow : (-128 : Rat) ≤ b.toInt := by exact_mod_cast b.le_toInt
  rw [sample]
  linarith

theorem sample_le (b : Byte) : sample b ≤ 127 / 128 := by
  have hhigh : (b.toInt : Rat) ≤ 127 := by exact_mod_cast Int.le_of_lt_add_one b.toInt_lt
  rw [sample]
  linarith

theorem audioDecode_fits {m : Memory} (h : (window24 m audPtrAddr).toNat ≤ 0xFFFF00) :
    audioDecode m = .ok (Vector.ofFn fun i => sample (m.byteAt ((window24 m audPtrAddr).toNat + i.val))) := by
  rcases audioDecode_cases m with ⟨-, haudio⟩ | ⟨hover, -⟩
  · exact haudio
  · exact absurd h (Nat.not_le.mpr hover)

theorem audioDecode_overruns {m : Memory} (h : 0xFFFF00 < (window24 m audPtrAddr).toNat) :
    audioDecode m = .error (.oob 0x1000000) := by
  rcases audioDecode_cases m with ⟨hfits, -⟩ | ⟨-, haudio⟩
  · exact absurd hfits (Nat.not_le.mpr h)
  · exact haudio

/-- Taking `OutOfBounds(a)` leaves what R112 says. -/
theorem State.faultedAt_takeFault (s : State) (a : Nat) : s.faultedAt (s.takeFault (.oob a)) a :=
  ⟨rfl, rfl, rfl, rfl, rfl, rfl, rfl⟩

end Sys2Proof.Machine
end

section
/-! The statements about the decoders (spec/42_io_decoders.md), settled. -/

namespace Sys2Proof.Proofs

open Sys2Proof.Machine

/-- Settles O24: the audio decode raises for `0x1000000`, and the close of the frame takes that fault. -/
theorem audioOverrunAbortsTheFrame : Obligations.AudioOverrunAbortsTheFrame := fun s hphase hpointer =>
  ⟨s.takeFault (.oob 0x1000000),
    (step_decode hphase).trans (congrArg _ (finishFrame_of_raise (audioDecode_overruns hpointer))),
    s.faultedAt_takeFault _, s.takeFault_mem _⟩

/-- Settles O28: the page byte, `y` and `x` are the digits of the address, and `y * 256 + x` is the pixel's index. -/
theorem pixelsAreRowMajorFromThePage : Obligations.PixelsAreRowMajorFromThePage := by
  intro m x y hx hy
  have hpage := (m.byteAt 5).isLt
  refine ⟨by omega, ?_⟩
  rw [videoDecode_getElem? m (by simp only [Config.fbPixels]; omega), Nat.add_assoc]

/-- Settles O32: the pointer is the 3-byte window at 6, and each sample has its byte's two's complement value. -/
theorem samplesAreSignedBytesOver128 : Obligations.SamplesAreSignedBytesOver128 := by
  intro m p hp hfits
  have hpointer : (window24 m audPtrAddr).toNat = p := (window24_toNat m audPtrAddr).trans hp.symm
  refine ⟨_, audioDecode_fits (hpointer.trans_le hfits), ?_⟩
  rintro i _ hi rfl
  rw [Vector.getElem_ofFn, hpointer]
  exact ⟨sample_of_lt, sample_of_ge, neg_one_le_sample _, sample_le _⟩

/-- Settles O29, by the two branches of the palette. -/
theorem paletteIsTheWebSafeCube : Obligations.PaletteIsTheWebSafeCube := by
  refine ⟨fun r g b => ?cube, fun _ => palette_black⟩
  case cube =>
    have hindex : (BitVec.ofNat 8 (36 * r.val + 6 * g.val + b.val)).toNat = 36 * r.val + 6 * g.val + b.val := by
      rw [BitVec.toNat_ofNat, Nat.mod_eq_of_lt (by omega)]
    rw [palette_cube r.isLt g.isLt b.isLt hindex]
    simp only [cubeComponent, Nat.mul_comm]

/-- Settles O30: index 220 is one of the black entries. -/
theorem framebufferOf220IsBlack : Obligations.FramebufferOf220IsBlack := by
  intro m hfilled i hi
  rw [videoDecode_getElem? m hi, hfilled i hi, palette_black (by decide)]

/-- Settles O31: each component appended is the low digit in base 256. -/
theorem packedPixelIsRgbaFromTheTop : Obligations.PackedPixelIsRgbaFromTheTop := Rgba.packed_toNat

end Sys2Proof.Proofs
end

section
/-! SUPPORT. How a step takes `OutOfBounds`, said once, and what the host can do to the machine it leaves
(spec/60_exceptions.md R111, R112, R114, R116). -/

namespace Sys2Proof.Machine

/-! ### The sites of `OutOfBounds` (R111, R112) -/

/-- Everything a step that latches `e` can be: an instruction whose check fails on either side of its copy (R62), or the
audio decode of a pointer too high (R102). -/
inductive FaultEntry (s : State) : State → ErrorRecord → Prop where
  | afterCopy {pc : Addr} {n : Nat} (hphase : s.phase = .burst pc n) (hcopy : pc.toNat ≤ 0xFFFFFC)
      (hpc : 0xFFFFFA ≤ pc.toNat) :
      FaultEntry s ((s.copyAt pc).takeFault (.oob (pc.toNat + 6))) (.oob (pc.toNat + 6))
  | beforeCopy {pc : Addr} {n : Nat} (hphase : s.phase = .burst pc n) (hpc : 0xFFFFFD ≤ pc.toNat) :
      FaultEntry s (s.takeFault (.oob (pc.toNat + 3))) (.oob (pc.toNat + 3))
  | audio (hphase : s.phase = .decode) (hpointer : 0xFFFF00 < (window24 s.mem audPtrAddr).toNat) :
      FaultEntry s (s.takeFault (.oob 0x1000000)) (.oob 0x1000000)

theorem audioDecode_raises {m : Memory} {e : ErrorRecord} (h : audioDecode m = .error e) :
    0xFFFF00 < (window24 m audPtrAddr).toNat := by
  by_contra hpointer
  rw [audioDecode_fits (Nat.not_lt.mp hpointer)] at h
  cases h

theorem FrameStep.faultEntry {s t : State} {e : ErrorRecord} (h : FrameStep s t) (hs : s.fault = none)
    (ht : t.fault = some e) : FaultEntry s t e := by
  cases h with
  | jumps | emits => cases hs.symm.trans ht
  | faultsAfterCopy hphase hcopy hpc =>
    simp only [Config.addrMax] at hcopy hpc
    cases ht
    exact .afterCopy hphase (by omega) (by omega)
  | faultsBeforeCopy hphase hpc =>
    simp only [Config.addrMax] at hpc
    cases ht
    exact .beforeCopy hphase (by omega)
  | audioFaults hphase haudio =>
    cases ht
    exact .audio hphase (audioDecode_raises haudio)

/-- No host operation latches a fault: `OutOfBounds` arises in a frame only (R111, R116). -/
theorem fault_apply_none {s : State} (h : s.fault = none) (op : HostOp) : (op.apply s).fault = none := by
  cases op with
  | reset => rfl
  | loadImage bytes =>
    show (s.loadImage bytes).fault = none
    rcases Nat.lt_or_ge Config.memSize bytes.length with hlen | hlen
    · rw [State.loadImage_oversized hlen, State.answer_fault, h]
    · rw [State.loadImage_fits hlen]
  | keyPress | keyRelease | start | stop | tick | isRunning | inspect | readFault => simpa [HostOp.apply] using h

theorem faultEntry_of_step {s t : State} {e : ErrorRecord} (hs : s.fault = none) (hstep : step s = .next t)
    (ht : t.fault = some e) : FaultEntry s t e := by
  cases stepsTo_of_step hstep with
  | waits => cases hs.symm.trans ht
  | @hostOp op rest => cases (fault_apply_none (s := { s with pending := rest }) hs op).symm.trans ht
  | frame hframe => exact hframe.faultEntry hs ht

/-! ### What taking it leaves (R112) -/

namespace FaultEntry

variable {s t : State} {e : ErrorRecord}

theorem faultedAt (h : FaultEntry s t e) : s.faultedAt t e.value := by
  cases h with
  | afterCopy | beforeCopy | audio => exact State.faultedAt_takeFault _ _

theorem kind_eq (h : FaultEntry s t e) : e.kind = .outOfBounds := by
  cases h with
  | afterCopy | beforeCopy | audio => rfl

/-- The store is as it was, but for the copy of an instruction whose `pc + 3` is legal (R62; D13). -/
theorem mem_cases (h : FaultEntry s t e) : t.mem = s.mem ∨
    ∃ pc n, s.phase = .burst pc n ∧ pc.toNat ≤ 0xFFFFFC ∧ t.mem = (s.copyAt pc).mem := by
  cases h with
  | afterCopy hphase hcopy => exact .inr ⟨_, _, hphase, hcopy, rfl⟩
  | beforeCopy | audio => exact .inl rfl

end FaultEntry

/-! ### A stopped machine with a fault latched (R114) -/

/-- On a stopped machine with a fault latched, an operation that is no reset and no fitting image changes `KEYS` at most,
and answers (R76, R78, R114). -/
theorem apply_of_faulted {s : State} {op : HostOp} (hfault : s.fault ≠ none) (hrun : s.run = false)
    (hreset : op ≠ .reset) (himage : ∀ bytes, op = .loadImage bytes → Config.memSize < bytes.length) :
    ∃ keys reply, op.apply s = (s.setKeys keys).answer reply := by
  cases op with
  | reset => exact absurd rfl hreset
  | loadImage bytes => exact ⟨s.keys, _, State.loadImage_oversized (himage bytes rfl)⟩
  | start => exact ⟨s.keys, _, State.start_faulted hfault⟩
  | stop =>
    have hstopped : s.setRun false = s := by rw [← hrun]; rfl
    exact ⟨s.keys, .done, congrArg (·.answer .done) hstopped⟩
  | tick time => exact ⟨s.keys, _, State.tickOpen_idle (admits_stopped hrun time)⟩
  | keyPress k => exact ⟨pressKey s.keys k, _, rfl⟩
  | keyRelease k => exact ⟨releaseKey s.keys k, _, rfl⟩
  | isRunning | inspect | readFault => exact ⟨s.keys, _, rfl⟩

/-- Under the invariant a latched fault stands on a stopped machine between frames (R112). -/
theorem State.Inv.stopped_of_fault {s : State} {e : ErrorRecord} (h : s.Inv) (he : s.fault = some e) :
    s.run = false ∧ s.phase = .idle := by
  have hrun : s.run = false := (h.latch e he).2
  refine ⟨hrun, ?_⟩
  cases hphase : s.phase with
  | idle => rfl
  | burst | decode =>
    have hrunning : s.run = true := h.running (by rw [hphase]; rfl)
    cases hrun.symm.trans hrunning

end Sys2Proof.Machine
end

section
/-! The statements about exceptions (spec/60_exceptions.md), settled. -/

namespace Sys2Proof.Proofs

open Sys2Proof.Machine

/-- Settles O39, site by site. -/
theorem outOfBoundsOnlyAtItsSites : Obligations.OutOfBoundsOnlyAtItsSites := by
  intro s t e hs hstep ht
  cases faultEntry_of_step hs hstep ht with
  | @afterCopy pc n hphase hcopy hpc => exact .inl ⟨pc, n, hphase, hpc, by rw [if_pos hcopy]⟩
  | @beforeCopy pc n hphase hpc => exact .inl ⟨pc, n, hphase, by omega, by rw [if_neg (by omega)]⟩
  | audio hphase hpointer => exact .inr ⟨hphase, hpointer, rfl⟩

/-- Settles O40: every entry is `takeFault`, and only the copy of an instruction below `0xFFFFFD` precedes it. -/
theorem faultEntryStopsTheMachine : Obligations.FaultEntryStopsTheMachine := by
  intro s t e hs hstep ht
  have hentry := faultEntry_of_step hs hstep ht
  refine ⟨hentry.faultedAt, hentry.kind_eq, ?_⟩
  rcases hentry.mem_cases with hmem | ⟨pc, n, hphase, hcopy, hmem⟩
  · exact ⟨fun _ => hmem, fun _ _ _ _ _ i _ => by rw [hmem], fun _ _ _ _ => hmem⟩
  · refine ⟨fun hdecode => ?decoders, fun pc' n' hphase' b hb => ?copied, fun pc' n' hphase' hpc => ?top⟩
    case decoders => cases hphase.symm.trans hdecode
    case copied =>
      cases hphase.symm.trans hphase'
      have hlegal : pc.toNat + 3 ≤ Config.addrMax := by simp only [Config.addrMax]; omega
      cases (read24_ok s.mem hlegal).symm.trans hb
      rw [hmem]
      exact sameBytesExcept_storeAt s.mem _ _
    case top =>
      cases hphase.symm.trans hphase'
      omega

/-- Settles O41: the invariant puts the machine between frames, where the waiting operation changes `KEYS` at most. -/
theorem faultedMachineStaysStopped : Obligations.FaultedMachineStaysStopped := by
  intro s t e hinv he hreset himage hstep
  obtain ⟨hrun, hphase⟩ := hinv.stopped_of_fault he
  cases stepsTo_of_step hstep with
  | waits => exact ⟨he, hrun, hphase, rfl, rfl⟩
  | @hostOp op rest hawaits =>
    simp only [hawaits.head?_eq, ne_eq, Option.some.injEq] at hreset himage
    obtain ⟨keys, reply, happly⟩ :=
      apply_of_faulted (s := { s with pending := rest }) (by simp [he]) hrun hreset himage
    rw [happly]
    exact ⟨he, hrun, hphase, rfl, rfl⟩
  | frame hframe =>
    have hinFrame := hframe.inFrame
    simp [hphase, Phase.inFrame] at hinFrame

end Sys2Proof.Proofs
end

section
/-! SUPPORT. Runs that keep below the top of memory (spec/70_reset_and_hazards.md R138): what such a state is, and that
no step from it latches a fault. -/

namespace Sys2Proof.Machine

/-- No site of `OutOfBounds` is ahead of the next step: an instruction stands at `pc <= 0xFFFFF9`, and the audio pointer
at the end of a burst is at most `0xFFFF00` (R138, R111). -/
def State.belowTheTop (s : State) : Prop :=
  (∀ pc n, s.phase = .burst pc n → wellPlaced pc = true) ∧
    (s.phase = .decode → (window24 s.mem audPtrAddr).toNat ≤ 0xFFFF00)

theorem wellPlaced_iff {pc : Addr} : wellPlaced pc = true ↔ pc.toNat ≤ 0xFFFFF9 :=
  decide_eq_true_iff.trans (by simp only [Config.addrMax]; omega)

theorem FaultEntry.not_belowTheTop {s t : State} {e : ErrorRecord} (h : FaultEntry s t e) : ¬ s.belowTheTop := by
  rintro ⟨hplaced, hpointer⟩
  cases h with
  | afterCopy hphase _ hpc =>
    have hlow := wellPlaced_iff.mp (hplaced _ _ hphase)
    omega
  | beforeCopy hphase hpc =>
    have hlow := wellPlaced_iff.mp (hplaced _ _ hphase)
    omega
  | audio hphase hhigh => exact absurd (hpointer hphase) (Nat.not_le.mpr hhigh)

/-- From a state below the top there is a next state, and it has no fault latched (R138). -/
theorem step_faultFree {s : State} (hfree : s.faultFree) (hbelow : s.belowTheTop) :
    ∃ t, step s = .next t ∧ t.faultFree := by
  obtain ⟨t, hstep, -⟩ := step_stepsTo s
  refine ⟨t, hstep, ?_⟩
  cases hlatch : t.fault with
  | none => exact hlatch
  | some e => exact absurd hbelow (faultEntry_of_step hfree hstep hlatch).not_belowTheTop

/-- A run's last state answers one more step, which makes it a longer run. -/
theorem run_snoc {k : Nat} {s u t : State} (hrun : Host.Core.run core k s = .next u) (hstep : step u = .next t) :
    Host.Core.run core (k + 1) s = .next t := by
  rw [run_add k 1 hrun, run_succ 0 hstep, run_zero]

theorem SafeRun.zero {s : State} (h : s.faultFree) : SafeRun s 0 := by
  intro j hj
  obtain rfl : j = 0 := Nat.le_zero.mp hj
  exact ⟨s, run_zero s, h⟩

theorem SafeRun.snoc {s u t : State} {k : Nat} (h : SafeRun s k) (hrun : Host.Core.run core k s = .next u)
    (hstep : step u = .next t) (hfree : t.faultFree) : SafeRun s (k + 1) := by
  intro j hj
  rcases Nat.le_succ_iff.mp hj with hj | rfl
  · exact h j hj
  · exact ⟨t, run_snoc hrun hstep, hfree⟩

end Sys2Proof.Machine
end

section
/-! SUPPORT. From a machine between frames to the first instruction of an image: load, start, due tick
(spec/70_reset_and_hazards.md R132, R133). -/

namespace Sys2Proof.Machine

/-- `s` with the image loaded, and `rest` still to be performed (R72). -/
def State.loaded (s : State) (image : List Byte) (rest : List HostOp) : State :=
  { s with mem := Memory.ofImage image, fault := none, pending := rest, reply := some .loaded }

/-- `s` with the image loaded and started, and `rest` still to be performed (R72, R76). -/
def State.started (s : State) (image : List Byte) (rest : List HostOp) : State :=
  { s with mem := Memory.ofImage image, fault := none, run := true, pending := rest, reply := some .done }

@[simp] theorem State.started_mem (s : State) (image : List Byte) (rest : List HostOp) :
    (s.started image rest).mem = Memory.ofImage image := rfl
@[simp] theorem State.started_keys (s : State) (image : List Byte) (rest : List HostOp) :
    (s.started image rest).keys = s.keys := rfl
@[simp] theorem State.started_run (s : State) (image : List Byte) (rest : List HostOp) :
    (s.started image rest).run = true := rfl
@[simp] theorem State.started_fault (s : State) (image : List Byte) (rest : List HostOp) :
    (s.started image rest).fault = none := rfl
@[simp] theorem State.started_pending (s : State) (image : List Byte) (rest : List HostOp) :
    (s.started image rest).pending = rest := rfl

/-- Beyond the keyboard word a frame opened on the image reads as the image (R72, R91). -/
theorem State.started_beginFrame_byteAt (s : State) (image : List Byte) (rest : List HostOp) (lft : Time) {i : Nat}
    (hi : 2 ≤ i) : ((s.started image rest).setLft lft).beginFrame.mem.byteAt i = image.getD i 0 := by
  rw [State.beginFrame_byteAt _ (by omega), setLft_mem, started_mem, Memory.byteAt_ofImage]
  rfl

/-- A load that fits and a start, one step each: the load clears the latch, so the start is not ignored (R72, R76). -/
theorem run_loadImage_start {s : State} {image : List Byte} {rest : List HostOp}
    (hawaits : s.awaits (.loadImage image) (.start :: rest)) (hfits : image.length ≤ Config.memSize) :
    Host.Core.run core 2 s = .next (s.started image rest) := by
  have hload : step s = .next (s.loaded image (.start :: rest)) :=
    hawaits.step_eq.trans (congrArg _ (State.loadImage_fits hfits))
  have hloaded : (s.loaded image (.start :: rest)).awaits .start rest := ⟨hawaits.1, rfl⟩
  have hstart : step (s.loaded image (.start :: rest)) = .next (s.started image rest) :=
    hloaded.step_eq.trans (congrArg _ (State.start_fault_free rfl))
  rw [run_succ 1 hload, run_succ 0 hstart, run_zero]

/-- A load that fits, a start and a due tick open a frame on the image, whatever the machine did before (R132). -/
theorem run_boot {s : State} {image : List Byte} {time : Time} {rest : List HostOp}
    (hawaits : s.awaits (.loadImage image) (.start :: .tick time :: rest)) (hfits : image.length ≤ Config.memSize)
    (hdue : Config.frameDuration ≤ time - s.lft) :
    ∃ lft, Host.Core.run core 3 s = .next ((s.started image rest).setLft lft).beginFrame := by
  obtain ⟨lft, htick⟩ := step_tick_due (s := s.started image (.tick time :: rest)) ⟨hawaits.1, rfl⟩ rfl hdue
  exact ⟨lft, run_snoc (run_loadImage_start hawaits hfits) htick⟩

end Sys2Proof.Machine
end

section
/-! The statements about reset and hazards (spec/70_reset_and_hazards.md), settled. -/

namespace Sys2Proof.Proofs

open Sys2Proof.Machine

/-- Settles O48, by induction on the number of steps: a fault has one of the three entries of `FaultEntry`, each of them
at the top. -/
theorem keepingBelowTheTopIsSafe : Obligations.KeepingBelowTheTopIsSafe := by
  intro s k hfree hbelow
  induction k with
  | zero => exact .zero hfree
  | succ k ih =>
    have hsafe : SafeRun s k := ih fun j hj => hbelow j (Nat.lt_succ_of_lt hj)
    obtain ⟨u, hrun, hu⟩ := hsafe k le_rfl
    obtain ⟨t, hstep, ht⟩ := step_faultFree hu (hbelow k (Nat.lt_succ_self k) u hrun)
    exact hsafe.snoc hrun hstep ht

/-- Settles O51: the three steps open a frame on the image, and the keyboard write of the reset `KEYS` does not reach
bytes 2 to 4. -/
theorem bootRunsTheImageAtItsPcstart : Obligations.BootRunsTheImageAtItsPcstart := by
  intro image time rest hfits hdue
  obtain ⟨lft, hrun⟩ := run_boot
    (s := { State.reset with pending := .loadImage image :: .start :: .tick time :: rest }) ⟨rfl, rfl⟩ hfits hdue
  refine ⟨_, _, hrun, State.beginFrame_phase _, ?queue, ?running, ?latch, ?pcstart,
    fun _ hi => State.started_beginFrame_byteAt _ image rest lft hi, ?high, ?low⟩
  case queue | running | latch => simp
  case pcstart =>
    rw [window24_toNat, State.started_beginFrame_byteAt _ _ _ _ (by decide),
      State.started_beginFrame_byteAt _ _ _ _ (by decide), State.started_beginFrame_byteAt _ _ _ _ (by decide)]
    rfl
  case high | low => simp

end Sys2Proof.Proofs
end
